-- ==== Sys2Proof/Word.lean ====
section
/-! DEFINITION. The bit vectors the engine works on (00_scope.md R6, R8): all unsigned, of one width each. -/

namespace Sys2Proof

/-- A byte of a message, of the block buffer or of the digest. -/
abbrev Byte := BitVec 8

/-- A 32-bit word: a datapath register, a command or a response. -/
abbrev Word := BitVec 32

/-- The value of the 64-bit message bit counter (10_state.md R24). -/
abbrev Count := BitVec 64

end Sys2Proof
end

