-- ==== Sys2Proof/Config.lean ====
section
/-! DEFINITION. The engine's parameters (00_scope.md R6). All are fixed but the number of engines on a platform (R7). -/

namespace Sys2Proof.Config

/-- BLOCK_BYTES: the block buffer holds one 64-byte block. -/
abbrev blockBytes : Nat := 64

/-- ROUNDS: rounds of one compression. -/
abbrev rounds : Nat := 80

/-- Rounds of one of the four stages. -/
abbrev stageRounds : Nat := 20

/-- The bit counter's range is below this bound (COUNTER_BITS = 64). -/
abbrev countBound : Nat := 2 ^ 64

/-- MAX_APPEND_BYTES: payload bytes one APPEND word carries at most. -/
abbrev maxAppendBytes : Nat := 3

/-- READ register indices are below this bound (REG_INDEX_BITS = 4). -/
abbrev regIndices : Nat := 16

/-- How many engines a platform has beside the first. The spec leaves it open (93_implementation_defined.md P1), so it
has no body and no proof can see its value. -/
opaque furtherEngines : Nat

/-- N_ENGINES, at least 1 (R6). -/
def nEngines : Nat := furtherEngines + 1

end Sys2Proof.Config
end

