-- ==== Sys2Proof/Syntax.lean ====
section
/-! DEFINITION. The commands of the engine: one constructor per row of spec/opcode_table.json (30_encoding.md R81). -/

namespace Sys2Proof

/-- A decoded command. The payload bytes of an APPEND stand in message order (30_encoding.md R74). -/
inductive Instr where
  /-- INIT, 41_init_append.md R110. -/
  | init
  /-- APPEND with no payload byte, R115. -/
  | append0
  /-- APPEND with one payload byte, R116. -/
  | append1 (b0 : Byte)
  /-- APPEND with two payload bytes, R117. -/
  | append2 (b0 b1 : Byte)
  /-- APPEND with three payload bytes, R118. -/
  | append3 (b0 b1 b2 : Byte)
  /-- FINALIZE, 42_finalize.md R130. -/
  | finalize
  /-- READ of the register with index `reg`, 44_read.md R170. Indices 8 to 15 are a READ too (30_encoding.md R79). -/
  | read (reg : Nat)
  deriving DecidableEq, Repr

end Sys2Proof
end

