-- ==== Sys2Proof/WellFormed.lean ====
section
/-! DEFINITION. Which commands have an encoding: the byte operands always fit, the register index of READ must be one of
the sixteen (30_encoding.md R75). -/

namespace Sys2Proof

/-- The command's operands fit the fields of its encoding. -/
def Instr.wf : Instr → Bool
  | .init | .append0 | .append1 _ | .append2 _ _ | .append3 _ _ _ | .finalize => true
  | .read reg => decide (reg < Config.regIndices)

end Sys2Proof
end

