-- ==== Sys2Proof/Decode.lean ====
section
/-! DEFINITION. The command decoder (30_encoding.md R80), the encoder (R70 to R75), and the opcode table (R81). -/

namespace Sys2Proof

/-- Why a word is no command (30_encoding.md R79). -/
inductive DecodeError where
  /-- OP is 0x0 or 0x5 to 0xF (R77). -/
  | reservedOpcode
  /-- OP is a command's, and a reserved field is not zero (R78). -/
  | reservedField
  deriving DecidableEq, Repr

/-- The field `w[lo + len - 1 : lo]` as an unsigned number (00_scope.md R8). -/
def field (w : Word) (lo len : Nat) : Nat := w.toNat / 2 ^ lo % 2 ^ len

/-- The byte of `w` whose lowest bit is bit `lo`. -/
def byteAt (w : Word) (lo : Nat) : Byte := w.extractLsb' lo 8

/-- An APPEND word, its OP already read: CNT chooses the form, and RSV and the payload bytes beyond CNT must be zero. -/
def decodeAppend (w : Word) : Except DecodeError Instr :=
  if field w 26 2 ≠ 0 then .error .reservedField
  else match field w 24 2 with
    | 0 => if field w 0 24 ≠ 0 then .error .reservedField else .ok .append0
    | 1 => if field w 0 16 ≠ 0 then .error .reservedField else .ok (.append1 (byteAt w 16))
    | 2 => if field w 0 8 ≠ 0 then .error .reservedField else .ok (.append2 (byteAt w 16) (byteAt w 8))
    | _ => .ok (.append3 (byteAt w 16) (byteAt w 8) (byteAt w 0))

/-- The decoder of 30_encoding.md R80: total, and it reads the word alone (R82). -/
def decode (w : Word) : Except DecodeError Instr :=
  match field w 28 4 with
  | 1 => if field w 0 28 = 0 then .ok .init else .error .reservedField
  | 2 => decodeAppend w
  | 3 => if field w 0 28 = 0 then .ok .finalize else .error .reservedField
  | 4 => if field w 4 24 = 0 then .ok (.read (field w 0 4)) else .error .reservedField
  | _ => .error .reservedOpcode

/-- A command word from its fields OP, RSV = 0, CNT and the payload bytes (30_encoding.md R70). -/
def commandWord (op : BitVec 4) (cnt : BitVec 2) (b0 b1 b2 : Byte) : Word :=
  op ++ 0#2 ++ cnt ++ b0 ++ b1 ++ b2

/-- The word of a command (30_encoding.md R83 to R85). A register index that has no encoding loses its high bits. -/
def encode : Instr → Word
  | .init => commandWord 1 0 0 0 0
  | .append0 => commandWord 2 0 0 0 0
  | .append1 b0 => commandWord 2 1 b0 0 0
  | .append2 b0 b1 => commandWord 2 2 b0 b1 0
  | .append3 b0 b1 b2 => commandWord 2 3 b0 b1 b2
  | .finalize => commandWord 3 0 0 0 0
  | .read reg => commandWord 4 0 0 0 (BitVec.ofNat 8 (reg % 16))

/-- A row of the opcode table: the listed command is any word `w` with `w & mask = value` (30_encoding.md R81). -/
structure OpcodeRow where
  mnemonic : String
  value : Word
  mask : Word
  deriving DecidableEq, Repr

/-- The word is a command of this row. -/
def OpcodeRow.isRowOf (r : OpcodeRow) (w : Word) : Bool := w &&& r.mask == r.value

/-- A command's row in the opcode table of 30_encoding.md R81. -/
def Instr.row : Instr → OpcodeRow
  | .init => ⟨"INIT", 0x10000000, 0xFFFFFFFF⟩
  | .append0 => ⟨"APPEND.0", 0x20000000, 0xFFFFFFFF⟩
  | .append1 _ => ⟨"APPEND.1", 0x21000000, 0xFF00FFFF⟩
  | .append2 _ _ => ⟨"APPEND.2", 0x22000000, 0xFF0000FF⟩
  | .append3 _ _ _ => ⟨"APPEND.3", 0x23000000, 0xFF000000⟩
  | .finalize => ⟨"FINALIZE", 0x30000000, 0xFFFFFFFF⟩
  | .read _ => ⟨"READ", 0x40000000, 0xFFFFFFF0⟩

/-- The opcode table of 30_encoding.md R81 and spec/opcode_table.json, in its order. A row does not depend on operands. -/
def opcodeTable : List OpcodeRow :=
  [Instr.init, .append0, .append1 0, .append2 0 0, .append3 0 0 0, .finalize, .read 0].map Instr.row

/-- The word a table instruction of `nbits` bits stands for: every command is one 32-bit word (30_encoding.md R82), so
bits at and above `nbits` are zero and a longer one is no command. -/
def tableWord (nbits w : Nat) : Option Word :=
  if nbits ≤ 32 then some (BitVec.ofNat 32 (w % 2 ^ nbits)) else none

/-- What the decoder reads from a word of the opcode table, numbered as the table numbers bits. -/
def decodeTableWord (nbits w : Nat) : Option Instr :=
  match tableWord nbits w with
  | none => none
  | some word =>
    match decode word with
    | .ok i => some i
    | .error _ => none

end Sys2Proof
end

