-- ==== Sys2Proof/Machine/State.lean ====
section
/-! DEFINITION. The state of the engine and its two interfaces, the reasons a run stops, and the state after reset
(10_state.md, 20_memory.md R50 and R51, 70_reset_and_hazards.md R200 and R201). -/

namespace Sys2Proof.Machine

/-- The life-cycle phase PHASE (10_state.md R20): three values, never a fourth. -/
inductive Phase where
  | uninit
  | accepting
  | finalized
  deriving DecidableEq, Repr

/-- What the host does to the engine between commands (20_memory.md R66). -/
inductive HostInput where
  /-- The reset signal (70_reset_and_hazards.md R200). -/
  | reset
  /-- A 32-bit word written to the command port (20_memory.md R50). -/
  | command (word : Word)
  deriving DecidableEq, Repr

/-- The byte-addressed store BB: (address, byte) pairs in rising order of address. An address that is not listed reads as
0x00, and no listed byte is 0x00 (`Memory.wf`). DESIGN CHOICE, unsafe for what unlisted bytes read as at reset, log entry 2. -/
abbrev Memory := List Host.Cell

/-- A contract violation: the model's terminal outcome `Faulted{code, cix, word}` (60_exceptions.md R182, R184), with the
index and the word of the faulting command. Each is safe: the hardware's behaviour is unspecified there and the model
claims nothing about it (R185). -/
inductive Fault where
  /-- F1, raised by the step for a word whose OP is 0x0 or 0x5 to 0xF (30_encoding.md R77). Safe. -/
  | reservedOpcode (cix : Nat) (word : Word)
  /-- F2, raised by the step for a command word with a nonzero reserved field (30_encoding.md R78). Safe. -/
  | reservedField (cix : Nat) (word : Word)
  /-- F3, raised by APPEND and FINALIZE in UNINIT. Safe. -/
  | notInitialized (cix : Nat) (word : Word)
  /-- F4, raised by APPEND and FINALIZE in FINALIZED. Safe. -/
  | alreadyFinalized (cix : Nat) (word : Word)
  /-- F5, raised by READ of an index that is no register, 8 to 15 (44_read.md R171). Safe. -/
  | reservedRegister (cix : Nat) (word : Word)
  /-- F6, raised by READ of a DIGEST register outside FINALIZED (44_read.md R172). Safe. -/
  | digestNotValid (cix : Nat) (word : Word)
  /-- F7, raised by READ of BITCNT_LO or BITCNT_HI in UNINIT (44_read.md R174). Safe. -/
  | counterNotValid (cix : Nat) (word : Word)
  /-- F8, raised by APPEND and FINALIZE when an absorb would carry BITCNT past 2^64 - 1 (41_init_append.md R113). Safe. -/
  | counterOverflow (cix : Nat) (word : Word)
  deriving DecidableEq, Repr

/-- Why the model gives an instruction no meaning. No command of this engine is refused. -/
inductive Refusal where
  /-- Raised by `exec` for a command whose meaning is not written, by its mnemonic. Safe. No arm raises it. -/
  | notModelled (mnemonic : String)
  deriving DecidableEq, Repr

/-- Everything the spec gives the engine to hold (10_state.md section 1), the command index and the two interfaces. -/
structure State where
  /-- PHASE (10_state.md R20). -/
  phase : Phase
  /-- H[0..4], the chaining state (R22). -/
  h : Vector Word 5
  /-- BITCNT, the message bit counter (R24). -/
  bitcnt : Count
  /-- BB[0..63], the block buffer (R27). -/
  bb : Memory
  /-- DG[0..19], the digest store (R30). -/
  dg : Vector Byte 20
  /-- WR[0..4], the working registers a to e (R32). -/
  wr : Vector Word 5
  /-- WS[0..15], the circular schedule buffer (R33). -/
  ws : Vector Word 16
  /-- cix, the index of the next command (R36). -/
  cix : Nat
  /-- What the host has written and the engine not yet consumed, oldest first (20_memory.md R50). -/
  port : List HostInput
  /-- The response stream, oldest word first (20_memory.md R51). -/
  resp : List Word
  deriving DecidableEq, Repr

/-- The engine after hardware reset (70_reset_and_hazards.md R200, R201). PHASE, cix and the response stream are the
spec's; the spec gives no value for H, BITCNT, BB, DG, WR and WS, and zero is the model's DESIGN CHOICE, unsafe for a claim
that leans on it, log entry 1. No input is pending, log entry 3. -/
def State.reset : State where
  phase := .uninit
  h := Vector.replicate 5 0
  bitcnt := 0
  bb := []
  dg := Vector.replicate 20 0
  wr := Vector.replicate 5 0
  ws := Vector.replicate 16 0
  cix := 0
  port := []
  resp := []

end Sys2Proof.Machine
end

