-- ==== Sys2Proof/Machine/Operands.lean ====
section
/-! DEFINITION. Operand forms: bytes to words and words to bytes, all big-endian (20_memory.md R52, 00_scope.md R10), and
the payload of an APPEND (30_encoding.md R74). -/

namespace Sys2Proof.Machine

/-- BE32: the first byte is the most significant (00_scope.md R10). -/
def be32 (b0 b1 b2 b3 : Byte) : Word := b0 ++ b1 ++ b2 ++ b3

/-- Byte `j` of a word, byte 0 the most significant (42_finalize.md R135). -/
def wordByte (w : Word) (j : Nat) : Byte := w.extractLsb' (24 - 8 * j) 8

/-- BE32bytes: a word as four bytes, the most significant first (00_scope.md R10). -/
def be32Bytes (w : Word) : List Byte := [wordByte w 0, wordByte w 1, wordByte w 2, wordByte w 3]

/-- BE64bytes: a 64-bit value as eight bytes, the most significant first (00_scope.md R10, 42_finalize.md R131). -/
def be64Bytes (c : Count) : List Byte := (List.range 8).map fun j => c.extractLsb' (56 - 8 * j) 8

/-- The message bytes a command carries, in message order (30_encoding.md R74). -/
def payload : Instr → List Byte
  | .append0 => []
  | .append1 b0 => [b0]
  | .append2 b0 b1 => [b0, b1]
  | .append3 b0 b1 b2 => [b0, b1, b2]
  | .init | .finalize | .read _ => []

end Sys2Proof.Machine
end

