-- ==== Sys2Proof/Machine/Rotate.lean ====
section
/-! DEFINITION. The 32-bit rotator (40_rotation.md): a pure function block, for any integer amount (R103). -/

namespace Sys2Proof.Machine

/-- The amount of a rotation: the Euclidean remainder modulo 32 (40_rotation.md R102). -/
def rotAmount (n : Int) : Nat := (n % 32).toNat

/-- Rotate left (40_rotation.md R100). -/
def rotl32 (x : Word) (n : Int) : Word :=
  if rotAmount n = 0 then x else (x <<< rotAmount n) ||| (x >>> (32 - rotAmount n))

/-- Rotate right (40_rotation.md R101). Part of the rotator; nothing in the engine uses it (R105, 90_conflicts.md C2). -/
def rotr32 (x : Word) (n : Int) : Word :=
  if rotAmount n = 0 then x else (x >>> rotAmount n) ||| (x <<< (32 - rotAmount n))

end Sys2Proof.Machine
end

