-- ==== Sys2Proof/Machine/Compression.lean ====
section
/-! DEFINITION. The compression function (43_compression.md): schedule expander, round datapath and accumulation. -/

namespace Sys2Proof.Machine

/-- The stage function f_t (43_compression.md R155); the stage is `t div 20`. -/
def stageFn (t : Nat) (b c d : Word) : Word :=
  match t / Config.stageRounds with
  | 0 => (b &&& (c ^^^ d)) ^^^ d
  | 1 => b ^^^ c ^^^ d
  | 2 => (b &&& c) ||| (b &&& d) ||| (c &&& d)
  | _ => b ^^^ c ^^^ d

/-- The additive constant K_t (43_compression.md R155). -/
def stageConst (t : Nat) : Word :=
  match t / Config.stageRounds with
  | 0 => 0x5A827999
  | 1 => 0x6ED9EBA1
  | 2 => 0x8F1BBCDC
  | _ => 0xCA62C1D6

/-- Word `i` of a block (43_compression.md R151). -/
def blockWord (blk : Vector Byte 64) (i : Fin 16) : Word :=
  be32 blk[4 * i.val] blk[4 * i.val + 1] blk[4 * i.val + 2] blk[4 * i.val + 3]

/-- Schedule load: WS[0..15] (43_compression.md R151). -/
def loadSchedule (blk : Vector Byte 64) : Vector Word 16 := Vector.ofFn (blockWord blk)

/-- Slot `t mod 16` of the circular schedule buffer. -/
def slot (ws : Vector Word 16) (t : Nat) : Word := ws[t % 16]

/-- expand(t), for t from 16 (43_compression.md R152). -/
def expand (t : Nat) (ws : Vector Word 16) : Vector Word 16 :=
  ws.set (t % 16) (rotl32 (slot ws (t - 3) ^^^ slot ws (t - 8) ^^^ slot ws (t - 14) ^^^ slot ws t) 1)

/-- The working register that has role `j` in round `t`: `(j - t) mod 5` (43_compression.md R156). -/
def role (j t : Nat) : Fin 5 := ⟨(((j : Int) - (t : Int)) % 5).toNat, by omega⟩

/-- One round in the rotating-role form (43_compression.md R156). -/
def oneRound (t : Nat) (wt : Word) (wr : Vector Word 5) : Vector Word 5 :=
  let sum := wr[role 4 t] + stageFn t wr[role 1 t] wr[role 2 t] wr[role 3 t] + wt + stageConst t + rotl32 wr[role 0 t] 5
  (wr.set (role 4 t) sum).set (role 1 t) (rotl32 wr[role 1 t] 30)

/-- The two register files of the round datapath. -/
structure Datapath where
  ws : Vector Word 16
  wr : Vector Word 5
  deriving DecidableEq, Repr

/-- Before the first round: schedule loaded, working registers seeded from H (43_compression.md R151, R154). -/
def Datapath.start (h : Vector Word 5) (blk : Vector Byte 64) : Datapath := ⟨loadSchedule blk, h⟩

/-- Expansion, from round 16 on, then round `t` (43_compression.md R150). -/
def roundStep (t : Nat) (d : Datapath) : Datapath :=
  let ws := if 16 ≤ t then expand t d.ws else d.ws
  ⟨ws, oneRound t (slot ws t) d.wr⟩

/-- The datapath after the first `n` rounds. -/
def runRounds : Nat → Datapath → Datapath
  | 0, d => d
  | n + 1, d => roundStep n (runRounds n d)

/-- The datapath after all rounds of a compression. -/
def Datapath.final (h : Vector Word 5) (blk : Vector Byte 64) : Datapath := runRounds Config.rounds (.start h blk)

/-- Accumulation: each working register is added into its word of H, modulo 2^32 (43_compression.md R159). -/
def accumulate (h wr : Vector Word 5) : Vector Word 5 := Vector.zipWith (· + ·) h wr

/-- The chaining state after the compression of a block. -/
def compressed (h : Vector Word 5) (blk : Vector Byte 64) : Vector Word 5 := accumulate h (Datapath.final h blk).wr

/-- compress(B) (43_compression.md R150): reads H and the block, writes H, WR and WS alone (R163). -/
def compress (blk : Vector Byte 64) (s : State) : State :=
  { s with
    h := compressed s.h blk
    wr := (Datapath.final s.h blk).wr
    ws := (Datapath.final s.h blk).ws }

end Sys2Proof.Machine
end

