-- ==== Sys2Proof/Machine/Flags.lean ====
section
/-! DEFINITION. What is computed from PHASE and BITCNT. The engine has no condition codes (10_state.md R37): its one status
is the STATUS word (R40), and its one range check that of the bit counter (41_init_append.md R113). -/

namespace Sys2Proof.Machine

/-- The number of PHASE in STATUS[1:0] (10_state.md R20). -/
def Phase.code : Phase → BitVec 2
  | .uninit => 0
  | .accepting => 1
  | .finalized => 2

/-- FILL: how many bytes of the block buffer are valid (10_state.md R27). -/
def State.fill (s : State) : Nat := s.bitcnt.toNat / 8 % 64

/-- FILL as STATUS shows it: 0 in UNINIT (10_state.md R40). -/
def State.shownFill (s : State) : Nat := if s.phase = .uninit then 0 else s.fill

/-- The STATUS word: PHASE in [1:0], FILL in [13:8], every other bit 0 (10_state.md R40). -/
def statusWord (s : State) : Word := 0#18 ++ BitVec.ofNat 6 s.shownFill ++ 0#6 ++ s.phase.code

/-- BITCNT_LO (10_state.md R24). -/
def countLo (c : Count) : Word := c.extractLsb' 0 32

/-- BITCNT_HI (10_state.md R24). -/
def countHi (c : Count) : Word := c.extractLsb' 32 32

/-- check_count (41_init_append.md R113): the counter can take `n` more bytes. -/
def countFits (c : Count) (n : Nat) : Bool := decide (c.toNat + 8 * n < Config.countBound)

/-- The counter after `n` more bytes (41_init_append.md R112 step 1). -/
def addBytes (c : Count) (n : Nat) : Count := c + BitVec.ofNat 64 (8 * n)

end Sys2Proof.Machine
end

