-- ==== Sys2Proof/Machine/Memory.lean ====
section
/-! DEFINITION. The block buffer as a byte-addressed store (20_memory.md R54): MemRead and MemWrite of 00_scope.md R11. -/

namespace Sys2Proof.Machine

/-- What an address that is not listed reads as: 0x00, which INIT writes everywhere (41_init_append.md R110). -/
def unlistedByte : Byte := 0x00

/-- The canonical form of cells at addresses from `lo`: rising addresses inside the buffer, no byte that is read anyway. -/
def Memory.wfFrom : Nat → Memory → Bool
  | _, [] => true
  | lo, (a, b) :: rest =>
    decide (lo ≤ a) && decide (a < Config.blockBytes) && b != unlistedByte && Memory.wfFrom (a + 1) rest

/-- The canonical form: equal buffers are equal lists. -/
def Memory.wf (m : Memory) : Bool := m.wfFrom 0

/-- The byte at an address. -/
def Memory.read : Memory → Nat → Byte
  | [], _ => unlistedByte
  | (a, b) :: rest, x => if x = a then b else Memory.read rest x

/-- The cells without those of address `x`. -/
def Memory.without (m : Memory) (x : Nat) : Memory := m.filter fun c => c.1 != x

/-- A cell in its place among cells in rising order of address. -/
def Memory.insertCell (x : Nat) (v : Byte) : Memory → Memory
  | [] => [(x, v)]
  | (a, b) :: rest => if x < a then (x, v) :: (a, b) :: rest else (a, b) :: Memory.insertCell x v rest

/-- MemWrite of one byte (00_scope.md R11), keeping the canonical form: a byte that is read anyway is not listed. -/
def Memory.write (m : Memory) (x : Nat) (v : Byte) : Memory :=
  if v = unlistedByte then m.without x else Memory.insertCell x v (m.without x)

/-- MemWrite of the bytes of a sequence at consecutive addresses (00_scope.md R11). -/
def Memory.writeBytes : Memory → Nat → List Byte → Memory
  | m, _, [] => m
  | m, x, v :: vs => Memory.writeBytes (m.write x v) (x + 1) vs

/-- Every byte 0x00, as INIT leaves the buffer (41_init_append.md R110). -/
def Memory.zeroed : Memory := []

/-- MemRead(BB, 0, 64): all of the buffer at once, the one read the engine makes (20_memory.md R54). -/
def Memory.block (m : Memory) : Vector Byte 64 := Vector.ofFn fun i => m.read i

/-- The `n` bytes at the lowest addresses; with `n` = FILL, the valid bytes in message order (10_state.md R27). -/
def Memory.firstBytes (m : Memory) (n : Nat) : List Byte := (List.range n).map m.read

end Sys2Proof.Machine
end

