-- ==== Sys2Proof/Machine/Ops.lean ====
section
/-! DEFINITION. The shared operations: absorbing bytes, emitting a response, storing the digest, faulting, and taking an
input from the command port. -/

namespace Sys2Proof.Machine

/-- The five initialisation constants, in state order (41_init_append.md R110, R111). -/
def initialH : Vector Word 5 := #v[0x67452301, 0xEFCDAB89, 0x98BADCFE, 0x10325476, 0xC3D2E1F0]

/-- A byte into the buffer at address FILL, counted (41_init_append.md R114). -/
def State.storeByte (b : Byte) (s : State) : State :=
  { s with bb := s.bb.write s.fill b, bitcnt := addBytes s.bitcnt 1 }

/-- absorb_byte (41_init_append.md R114): the byte at address 63 completes the block, which is compressed at once. -/
def absorbByte (s : State) (b : Byte) : State :=
  if s.fill = 63 then compress (s.storeByte b).bb.block (s.storeByte b) else s.storeByte b

/-- absorb(P) in the hardware's form, byte by byte (41_init_append.md R114); `none` is the overflow of check_count (R113),
found before any state changes. Of the two forms the spec allows this is the model's, DESIGN CHOICE, log entry 4. -/
def absorb (p : List Byte) (s : State) : Option State :=
  if countFits s.bitcnt p.length then some (p.foldl absorbByte s) else none

/-- The contract violation of a command (60_exceptions.md R184): the model stops with the command's index and word. The word
is the command's one encoding (30_encoding.md R81), log entry 7. -/
def raise (code : Nat → Word → Fault) (i : Instr) (s : State) : Host.Outcome State Fault Refusal :=
  .fault (code s.cix (encode i))

/-- emit(w): one word more on the response stream (00_scope.md R11, 20_memory.md R51). -/
def State.emit (w : Word) (s : State) : State := { s with resp := s.resp ++ [w] }

/-- The digest of a chaining state: byte `4k + j` is byte `j` of H[k] (42_finalize.md R135). -/
def digestBytes (h : Vector Word 5) : Vector Byte 20 :=
  Vector.ofFn fun i => wordByte (h[i.val / 4]'(by omega)) (i.val % 4)

/-- The digest stored and the message ended (42_finalize.md R130 step 5). -/
def State.storeDigest (s : State) : State := { s with dg := digestBytes s.h, phase := .finalized }

/-- Hardware reset (70_reset_and_hazards.md R200): PHASE, the command index and the response stream; no other engine state
is written. -/
def State.hardwareReset (s : State) : State := { s with phase := .uninit, cix := 0, resp := [] }

/-- The oldest input is consumed (20_memory.md R50). -/
def State.dropInput (s : State) : State := { s with port := s.port.tail }

/-- A command has completed: `cix <- cix + 1` (10_state.md R36). -/
def State.countCommand (s : State) : State := { s with cix := s.cix + 1 }

/-- The fault of a word that is no command (30_encoding.md R77, R78). -/
def decodeFault (e : DecodeError) (cix : Nat) (w : Word) : Fault :=
  match e with
  | .reservedOpcode => .reservedOpcode cix w
  | .reservedField => .reservedField cix w

/-- A command's end: the state of its effect with the command counted, or the stop. -/
def complete : Host.Outcome State Fault Refusal → Host.Outcome State Fault Refusal
  | .next s => .next s.countCommand
  | .fault f => .fault f
  | .refused r => .refused r

end Sys2Proof.Machine
end

