-- ==== Sys2Proof/Machine/Append.lean ====
section
/-! DEFINITION. INIT and the four APPEND forms (41_init_append.md). -/

namespace Sys2Proof.Machine

/-- The writes of INIT (41_init_append.md R110). DG, WR, WS and the response stream are not written. -/
def State.startMessage (s : State) : State :=
  { s with h := initialH, bitcnt := 0, bb := Memory.zeroed, phase := .accepting }

/-- INIT (41_init_append.md R110), legal in every phase. -/
def execInit (s : State) : Host.Outcome State Fault Refusal := .next s.startMessage

/-- What the four APPEND forms share: append_guard, then absorb of the payload (41_init_append.md section 3). -/
def appendPayload (i : Instr) (s : State) : Host.Outcome State Fault Refusal :=
  match s.phase with
  | .uninit => raise .notInitialized i s
  | .finalized => raise .alreadyFinalized i s
  | .accepting =>
    match absorb (payload i) s with
    | some t => .next t
    | none => raise .counterOverflow i s

/-- APPEND with 0 bytes (41_init_append.md R115). -/
def execAppend0 (s : State) : Host.Outcome State Fault Refusal := appendPayload .append0 s

/-- APPEND with 1 byte (41_init_append.md R116). -/
def execAppend1 (b0 : Byte) (s : State) : Host.Outcome State Fault Refusal := appendPayload (.append1 b0) s

/-- APPEND with 2 bytes (41_init_append.md R117). -/
def execAppend2 (b0 b1 : Byte) (s : State) : Host.Outcome State Fault Refusal := appendPayload (.append2 b0 b1) s

/-- APPEND with 3 bytes (41_init_append.md R118). -/
def execAppend3 (b0 b1 b2 : Byte) (s : State) : Host.Outcome State Fault Refusal :=
  appendPayload (.append3 b0 b1 b2) s

end Sys2Proof.Machine
end

