-- ==== Sys2Proof/Machine/Finalize.lean ====
section
/-! DEFINITION. FINALIZE: padding, length field and digest (42_finalize.md). -/

namespace Sys2Proof.Machine

/-- Step 3 of FINALIZE (42_finalize.md R130, R133): zero bytes one at a time until BITCNT mod 512 is 448. A counter that is
a multiple of 8 gets there within 63 of them. Any other counter never does, so the loop runs into the overflow of its
absorbs (R138), which `none` is; no run reaches such a counter (10_state.md R25). DEDUCED, safe, log entry 6. -/
def padZeros : Nat → State → Option State
  | 0, _ => none
  | n + 1, s =>
    if s.bitcnt.toNat % 512 = 448 then some s
    else match absorb [0x00] s with
      | some t => padZeros n t
      | none => none

/-- Steps 1 to 4 of FINALIZE (42_finalize.md R130 to R133): the length field is the counter before any padding. -/
def padMessage (s : State) : Option State :=
  match absorb [0x80] s with
  | none => none
  | some s1 =>
    match padZeros 64 s1 with
    | none => none
    | some s2 => absorb (be64Bytes s.bitcnt) s2

/-- FINALIZE (42_finalize.md R130). -/
def execFinalize (s : State) : Host.Outcome State Fault Refusal :=
  match s.phase with
  | .uninit => raise .notInitialized .finalize s
  | .finalized => raise .alreadyFinalized .finalize s
  | .accepting =>
    match padMessage s with
    | some t => .next t.storeDigest
    | none => raise .counterOverflow .finalize s

end Sys2Proof.Machine
end

