-- ==== Sys2Proof/Machine/Read.lean ====
section
/-! DEFINITION. READ and the register map (44_read.md, 10_state.md section 9). -/

namespace Sys2Proof.Machine

/-- DIGESTk (10_state.md R41). -/
def digestWord (dg : Vector Byte 20) (k : Fin 5) : Word :=
  be32 dg[4 * k.val] dg[4 * k.val + 1] dg[4 * k.val + 2] dg[4 * k.val + 3]

/-- READ (44_read.md R170): emits one register of the map, or faults where the register is not readable. -/
def execRead (reg : Nat) (s : State) : Host.Outcome State Fault Refusal :=
  if reg = 0 then .next (s.emit (statusWord s))
  else if h : 1 ≤ reg ∧ reg ≤ 5 then
    if s.phase = .finalized then .next (s.emit (digestWord s.dg ⟨reg - 1, by omega⟩))
    else raise .digestNotValid (.read reg) s
  else if reg = 6 then
    if s.phase = .uninit then raise .counterNotValid (.read reg) s else .next (s.emit (countLo s.bitcnt))
  else if reg = 7 then
    if s.phase = .uninit then raise .counterNotValid (.read reg) s else .next (s.emit (countHi s.bitcnt))
  else raise .reservedRegister (.read reg) s

end Sys2Proof.Machine
end

