-- ==== Sys2Proof/Machine/Dispatch.lean ====
section
/-! DEFINITION. The meaning of every command. -/

namespace Sys2Proof.Machine

/-- What a command does to the state; the step consumes its word and counts it. -/
def exec (i : Instr) (s : State) : Host.Outcome State Fault Refusal :=
  match i with
  | .init => Sys2Proof.Machine.execInit s
  | .append0 => Sys2Proof.Machine.execAppend0 s
  | .append1 b0 => Sys2Proof.Machine.execAppend1 b0 s
  | .append2 b0 b1 => Sys2Proof.Machine.execAppend2 b0 b1 s
  | .append3 b0 b1 b2 => Sys2Proof.Machine.execAppend3 b0 b1 b2 s
  | .finalize => Sys2Proof.Machine.execFinalize s
  | .read reg => Sys2Proof.Machine.execRead reg s

end Sys2Proof.Machine
end

