-- ==== Sys2Proof/Machine/Step.lean ====
section
/-! DEFINITION. One step of the engine: it takes the oldest input of its port (20_memory.md R50). -/

namespace Sys2Proof.Machine

/-- A command word: a fault where it is no command (60_exceptions.md R183: the encoding comes first), else its meaning; the
command is counted when it has completed (10_state.md R36). -/
def runCommand (w : Word) (s : State) : Host.Outcome State Fault Refusal :=
  match decode w with
  | .error e => .fault (decodeFault e s.cix w)
  | .ok i => complete (exec i s)

/-- One step. With no input pending the engine waits and holds its state (20_memory.md R56, 60_exceptions.md R195).
DEDUCED, safe, log entry 3. -/
def step (s : State) : Host.Outcome State Fault Refusal :=
  match s.port with
  | [] => .next s
  | .reset :: _ => .next s.dropInput.hardwareReset
  | .command w :: _ => runCommand w s.dropInput

/-- The state whose next step runs the table word `w` of `nbits` bits: the host has written it in front of the pending
inputs. A word that is too long for a command is not written. -/
def State.withFetchWord (s : State) (nbits w : Nat) : State :=
  match tableWord nbits w with
  | some word => { s with port := .command word :: s.port }
  | none => s

end Sys2Proof.Machine
end

