-- ==== Sys2Proof/Machine/Assembler.lean ====
section
/-! DEFINITION. The assembler (30_encoding.md R83 to R85) and the pseudo-instructions (R90 to R92). A source text is a list
of characters. Lexical points the spec leaves open are named in log entry 9. -/

namespace Sys2Proof.Assembler

/-- Why a line does not assemble. -/
inductive AsmError where
  /-- A character, or an unfinished literal, that starts or ends no token. -/
  | badText
  /-- The line starts with no mnemonic of the assembler. -/
  | unknownMnemonic
  /-- The operands do not have the form the mnemonic takes. -/
  | badOperands
  /-- A byte outside 0 to 255, a character that is not ASCII, or a register outside 0 to 15 (R84, R85). -/
  | outOfRange
  deriving DecidableEq, Repr

/-- A token of a line. -/
inductive Token where
  /-- A mnemonic or register name, in capitals: case does not count. -/
  | name (cs : List Char)
  | number (n : Nat)
  | char (c : Char)
  | string (cs : List Char)
  | comma
  | openBracket
  | closeBracket
  deriving DecidableEq, Repr

/-- A byte sequence in command order: three bytes to an APPEND, the rest in the last one (R90). -/
def appends : List Byte → List Instr
  | [] => []
  | [b0] => [.append1 b0]
  | [b0, b1] => [.append2 b0 b1]
  | b0 :: b1 :: b2 :: rest => .append3 b0 b1 b2 :: appends rest

/-- READDIGEST (R91). -/
def readDigest : List Instr := [.read 1, .read 2, .read 3, .read 4, .read 5]

/-- HASH s (R92). -/
def hash (m : List Byte) : List Instr := [.init] ++ appends m ++ [.finalize]

/-- The word characters of names and numbers. -/
def isWordChar (c : Char) : Bool := c.isAlphanum || c = '_'

/-- The value of a digit in base 10 or 16. -/
def digitValue (hex : Bool) (c : Char) : Option Nat :=
  if '0' ≤ c ∧ c ≤ '9' then some (c.toNat - '0'.toNat)
  else if hex ∧ 'A' ≤ c ∧ c ≤ 'F' then some (c.toNat - 'A'.toNat + 10)
  else none

/-- The number its digits write, after what stands before them. -/
def numberFrom (hex : Bool) : Nat → List Char → Option Nat
  | n, [] => some n
  | n, c :: cs => match digitValue hex c with
    | some d => numberFrom hex ((if hex then 16 else 10) * n + d) cs
    | none => none

/-- A run of word characters, in capitals: a number where it starts with a digit, else a name (R84). -/
def wordToken (cs : List Char) : Except AsmError Token :=
  match cs with
  | '0' :: 'X' :: d :: ds => match numberFrom true 0 (d :: ds) with
    | some n => .ok (.number n)
    | none => .error .badText
  | c :: rest => if c.isDigit then match numberFrom false 0 (c :: rest) with
      | some n => .ok (.number n)
      | none => .error .badText
    else .ok (.name (c :: rest))
  | [] => .error .badText

/-- Where the tokenizer stands in a line. -/
inductive Scan where
  /-- Between tokens. -/
  | between
  /-- In a name or number; its characters so far, the last first. -/
  | word (seen : List Char)
  /-- After the quote that opens a character literal. -/
  | charOpen
  /-- After the character of a character literal. -/
  | charClose (c : Char)
  /-- In a string literal; its characters so far, the last first. -/
  | text (seen : List Char)
  /-- In a comment. -/
  | comment
  deriving DecidableEq, Repr

/-- The codes of the quotes that open literals. -/
def charQuote : Nat := 39
def stringQuote : Nat := 34

/-- A character that is no word character, between tokens: the token it is, if any, and where the scan then stands. -/
def scanMark (c : Char) : Except AsmError (List Token × Scan) :=
  if c = ' ' ∨ c = '\t' ∨ c = '\r' then .ok ([], .between)
  else if c = ';' then .ok ([], .comment)
  else if c = ',' then .ok ([.comma], .between)
  else if c = '[' then .ok ([.openBracket], .between)
  else if c = ']' then .ok ([.closeBracket], .between)
  else if c.toNat = charQuote then .ok ([], .charOpen)
  else if c.toNat = stringQuote then .ok ([], .text [])
  else .error .badText

/-- One character of a line: the tokens it completes and where the scan then stands. A quote, bracket or comma ends a name,
so no blank need stand between a mnemonic and a quoted or bracketed operand; the spec shows only forms with one. DESIGN
CHOICE, unsafe for claims about source texts alone, log entry 9. -/
def scanChar (st : Scan) (c : Char) : Except AsmError (List Token × Scan) :=
  match st with
  | .between => if isWordChar c then .ok ([], .word [c.toUpper]) else scanMark c
  | .word seen => if isWordChar c then .ok ([], .word (c.toUpper :: seen)) else do
      let t ← wordToken seen.reverse
      let (ts, st') ← scanMark c
      .ok (t :: ts, st')
  | .charOpen => .ok ([], .charClose c)
  | .charClose d => if c.toNat = charQuote then .ok ([.char d], .between) else .error .badText
  | .text seen => if c.toNat = stringQuote then .ok ([.string seen.reverse], .between) else .ok ([], .text (c :: seen))
  | .comment => .ok ([], .comment)

/-- The tokens of a line from where the scan stands. -/
def tokensFrom : Scan → List Char → Except AsmError (List Token)
  | .between, [] => .ok []
  | .comment, [] => .ok []
  | .word seen, [] => (wordToken seen.reverse).map fun t => [t]
  | .charOpen, [] => .error .badText
  | .charClose _, [] => .error .badText
  | .text _, [] => .error .badText
  | st, c :: cs => do
    let (ts, st') ← scanChar st c
    let rest ← tokensFrom st' cs
    .ok (ts ++ rest)

/-- The ASCII code of a character (R84). -/
def charByte (c : Char) : Except AsmError Byte :=
  if c.toNat < 128 then .ok (BitVec.ofNat 8 c.toNat) else .error .outOfRange

/-- A byte operand (R84). -/
def byteOperand : Token → Except AsmError Byte
  | .number n => if n < 256 then .ok (BitVec.ofNat 8 n) else .error .outOfRange
  | .char c => charByte c
  | _ => .error .badOperands

/-- Byte operands separated by commas. -/
def byteOperands : List Token → Except AsmError (List Byte)
  | [] => .ok []
  | [t] => (byteOperand t).map fun b => [b]
  | t :: .comma :: u :: rest => do
    let b ← byteOperand t
    let bs ← byteOperands (u :: rest)
    .ok (b :: bs)
  | _ => .error .badOperands

/-- The operand of APPENDS and HASH: a string literal or a bracketed byte list (R90). -/
def messageOperand : List Token → Except AsmError (List Byte)
  | [.string cs] => cs.mapM charByte
  | .openBracket :: rest => match rest.getLast? with
    | some .closeBracket => byteOperands rest.dropLast
    | _ => .error .badOperands
  | _ => .error .badOperands

/-- The names of the registers (R85), by index. -/
def registerNames : List (List Char) :=
  [['S','T','A','T','U','S'], ['D','I','G','E','S','T','0'], ['D','I','G','E','S','T','1'], ['D','I','G','E','S','T','2'],
   ['D','I','G','E','S','T','3'], ['D','I','G','E','S','T','4'], ['B','I','T','C','N','T','_','L','O'],
   ['B','I','T','C','N','T','_','H','I']]

/-- The register operand of READ (R85). -/
def registerOperand : List Token → Except AsmError Nat
  | [.number n] => if n < Config.regIndices then .ok n else .error .outOfRange
  | [.name cs] => match registerNames.findIdx? (· = cs) with
    | some k => .ok k
    | none => .error .badOperands
  | _ => .error .badOperands

/-- The APPEND of up to three operands (R84). -/
def appendOf : List Byte → Except AsmError Instr
  | [] => .ok .append0
  | [b0] => .ok (.append1 b0)
  | [b0, b1] => .ok (.append2 b0 b1)
  | [b0, b1, b2] => .ok (.append3 b0 b1 b2)
  | _ => .error .badOperands

/-- A mnemonic that takes no operand. -/
def bare (is : List Instr) (ops : List Token) : Except AsmError (List Instr) :=
  if ops = [] then .ok is else .error .badOperands

/-- The commands of a line's tokens; a line without tokens has none. -/
def lineCommands : List Token → Except AsmError (List Instr)
  | [] => .ok []
  | .name ['I','N','I','T'] :: ops => bare [.init] ops
  | .name ['F','I','N','A','L','I','Z','E'] :: ops => bare [.finalize] ops
  | .name ['R','E','A','D','D','I','G','E','S','T'] :: ops => bare readDigest ops
  | .name ['A','P','P','E','N','D'] :: ops => do
    let bs ← byteOperands ops
    let i ← appendOf bs
    .ok [i]
  | .name ['R','E','A','D'] :: ops => (registerOperand ops).map fun r => [.read r]
  | .name ['A','P','P','E','N','D','S'] :: ops => (messageOperand ops).map appends
  | .name ['H','A','S','H'] :: ops => (messageOperand ops).map hash
  | _ => .error .unknownMnemonic

/-- The words of a line. -/
def assembleLine (line : List Char) : Except AsmError (List Word) := do
  let ts ← tokensFrom .between line
  let is ← lineCommands ts
  .ok (is.map encode)

/-- The words of a source text, one command a line. -/
def assemble (text : List Char) : Except AsmError (List Word) :=
  ((text.splitOn '\n').mapM assembleLine).map List.flatten

end Sys2Proof.Assembler
end

