-- ==== Sys2Proof/Machine/Platform.lean ====
section
/-! DEFINITION. A platform of N_ENGINES engines (60_exceptions.md R192): independent, with no shared state and no messages. -/

namespace Sys2Proof.Machine

/-- What each engine of the platform has come to: its state, or the stop its last step ended in. -/
abbrev Platform := List (Host.Outcome State Fault Refusal)

/-- Every engine after reset. -/
def Platform.reset : Platform := List.replicate Config.nEngines (.next State.reset)

/-- An engine's own step; a stopped engine stays stopped (60_exceptions.md R184). -/
def stepAgain : Host.Outcome State Fault Refusal → Host.Outcome State Fault Refusal
  | .next s => step s
  | .fault f => .fault f
  | .refused r => .refused r

/-- Engine `k` takes a step. Which engine moves when is the platform's; the index is an argument. -/
def Platform.stepEngine (k : Nat) (p : Platform) : Platform := p.modify k stepAgain

end Sys2Proof.Machine
end

