-- ==== Sys2Proof/Machine/Reference.lean ====
section
/-! DEFINITION. The other forms in which the spec states the engine's algorithm. The machine does not run them; statements
compare them with what it runs. -/

namespace Sys2Proof.Reference

open Sys2Proof.Machine

/-- The first `n` words of the 80-word recurrence (43_compression.md R151, R153), without the circular buffer. -/
def schedule (blk : Vector Byte 64) : Nat → List Word
  | 0 => []
  | t + 1 =>
    let w := schedule blk t
    let next := if h : t < 16 then blockWord blk ⟨t, h⟩
      else rotl32 (w.getD (t - 3) 0 ^^^ w.getD (t - 8) 0 ^^^ w.getD (t - 14) 0 ^^^ w.getD (t - 16) 0) 1
    w ++ [next]

/-- W[t] (43_compression.md R153). -/
def scheduleWord (blk : Vector Byte 64) (t : Nat) : Word := (schedule blk (t + 1)).getD t 0

/-- The five working variables under their role names (43_compression.md R157). -/
structure Roles where
  a : Word
  b : Word
  c : Word
  d : Word
  e : Word
  deriving DecidableEq, Repr

/-- What the working registers hold under the role names of round `t` (43_compression.md R157). -/
def rolesOf (t : Nat) (wr : Vector Word 5) : Roles :=
  ⟨wr[role 0 t], wr[role 1 t], wr[role 2 t], wr[role 3 t], wr[role 4 t]⟩

/-- One round as a shift register (43_compression.md R157). -/
def shiftRound (t : Nat) (wt : Word) (r : Roles) : Roles :=
  ⟨rotl32 r.a 5 + stageFn t r.b r.c r.d + r.e + wt + stageConst t, r.a, rotl32 r.b 30, r.c, r.d⟩

/-- The roles after the first `n` rounds. -/
def shiftRounds (blk : Vector Byte 64) : Nat → Roles → Roles
  | 0, r => r
  | t + 1, r => shiftRound t (scheduleWord blk t) (shiftRounds blk t r)

/-- The compression function in the shift-register form with the 80-word schedule. -/
def compressed (h : Vector Word 5) (blk : Vector Byte 64) : Vector Word 5 :=
  let r := shiftRounds blk Config.rounds ⟨h[0], h[1], h[2], h[3], h[4]⟩
  #v[h[0] + r.a, h[1] + r.b, h[2] + r.c, h[3] + r.d, h[4] + r.e]

/-- Block `j` of a byte sequence. -/
def blockAt (bs : List Byte) (j : Nat) : Vector Byte 64 := Vector.ofFn fun i => bs.getD (64 * j + i.val) 0

/-- The chaining state after the first `n` blocks of a byte sequence, from `h` (41_init_append.md R120). -/
def chainFrom (h : Vector Word 5) (bs : List Byte) : Nat → Vector Word 5
  | 0 => h
  | n + 1 => compressed (chainFrom h bs n) (blockAt bs n)

/-- The chaining state after the first `n` blocks of a message, from the initialisation constants (R121). -/
def chain (bs : List Byte) (n : Nat) : Vector Word 5 := chainFrom initialH bs n

/-- z, the number of zero bytes of the padding (42_finalize.md R133, R137). -/
def zeroCount (len : Nat) : Nat := ((55 - (len : Int)) % 64).toNat

/-- The padded message M' (42_finalize.md R137). -/
def padded (m : List Byte) : List Byte :=
  m ++ [0x80] ++ List.replicate (zeroCount m.length) 0x00 ++ be64Bytes (BitVec.ofNat 64 (8 * m.length))

/-- The padded length in bits fits the counter (42_finalize.md R137, R138). -/
def paddedFits (m : List Byte) : Prop := 8 * (m.length + 9 + zeroCount m.length) < Config.countBound

/-- The chaining state after all blocks of the padded message. -/
def finalH (m : List Byte) : Vector Word 5 := chain (padded m) ((padded m).length / 64)

/-- The digest of a message, closed form (42_finalize.md R137). -/
def digest (m : List Byte) : Vector Byte 20 := digestBytes (finalH m)

/-- The whole blocks at the front of a byte sequence compressed in place, and what is left: the loop of step 3 of
41_init_append.md R112. The first argument bounds the loop. -/
def absorbWhole : Nat → List Byte → State → List Byte × State
  | 0, p, s => (p, s)
  | n + 1, p, s => if 64 ≤ p.length then absorbWhole n (p.drop 64) (compress (blockAt p 0) s) else (p, s)

/-- absorb(P) as the source states it (41_init_append.md R112), step 4 as 90_conflicts.md C1 settles it. -/
def absorb (p : List Byte) (s : State) : Option State :=
  if countFits s.bitcnt p.length then
    let counted := { s with bitcnt := addBytes s.bitcnt p.length }
    if 63 < s.fill + p.length then
      let filled := { counted with bb := s.bb.writeBytes s.fill (p.take (64 - s.fill)) }
      let rest := absorbWhole p.length (p.drop (64 - s.fill)) (compress filled.bb.block filled)
      some { rest.2 with bb := rest.2.bb.writeBytes 0 rest.1 }
    else some { counted with bb := s.bb.writeBytes s.fill p }
  else none

end Sys2Proof.Reference
end

