-- ==== Sys2Proof/Safety.lean ====
section
/-! DEFINITION. The terms statements use: the observation of a run, the invariants between commands, and when two engines
look the same to the host. -/

namespace Sys2Proof.Machine

/-- What a run shows (20_memory.md R67). Of a run that faulted it is the fault record and the words emitted before
(60_exceptions.md R184). -/
inductive Observation where
  /-- The run ended without a fault. -/
  | final (phase : Phase) (resp : List Word)
  | faulted (fault : Fault) (resp : List Word)
  | refused (reason : Refusal)
  deriving DecidableEq, Repr

/-- What the run of the first `n` inputs shows. -/
def observe : Nat → State → Observation
  | 0, s => .final s.phase s.resp
  | n + 1, s => match step s with
    | .next t => observe n t
    | .fault f => .faulted f s.resp
    | .refused r => .refused r

/-- What the run of all pending inputs shows: the run ends when they are consumed (20_memory.md R67). -/
def observation (s : State) : Observation := observe s.port.length s

/-- Commands as the host writes them to the port. -/
def asInputs (is : List Instr) : List HostInput := is.map fun i => .command (encode i)

/-- BB[0..FILL-1], the valid bytes in message order (10_state.md R27). -/
def State.validBytes (s : State) : List Byte := s.bb.firstBytes s.fill

/-- The commands in order, each on the state the one before left, without the port and the command index. -/
def execAll : List Instr → State → Host.Outcome State Fault Refusal
  | [], s => .next s
  | i :: is, s => match exec i s with
    | .next t => execAll is t
    | .fault f => .fault f
    | .refused r => .refused r

/-- The command is one of the four APPEND forms. -/
def isAppend : Instr → Bool
  | .append0 | .append1 _ | .append2 _ _ | .append3 _ _ _ => true
  | .init | .finalize | .read _ => false

/-- What APPEND of the bytes `p` does to the state `s`, at most three bytes (41_init_append.md R115 to R118): byte `j` goes
to address `(FILL + j) mod 64`, and a block it completes is compressed. -/
structure Appended (p : List Byte) (s t : State) : Prop where
  count : t.bitcnt.toNat = s.bitcnt.toNat + 8 * p.length
  fill : t.fill = (s.fill + p.length) % 64
  stored : ∀ j (h : j < p.length), t.bb.read ((s.fill + j) % 64) = p[j]
  kept : ∀ a, (∀ j < p.length, a ≠ (s.fill + j) % 64) → t.bb.read a = s.bb.read a
  inBlock : s.fill + p.length < 64 → t.h = s.h ∧ t.wr = s.wr ∧ t.ws = s.ws
  blockDone : 64 ≤ s.fill + p.length →
    t.h = Reference.compressed s.h (Reference.blockAt (s.validBytes ++ p) 0) ∧ t.h = accumulate s.h t.wr
  phase : t.phase = s.phase
  dg : t.dg = s.dg
  cix : t.cix = s.cix
  port : t.port = s.port
  resp : t.resp = s.resp

/-- The bytes FINALIZE compresses: the valid bytes, then the padding and the length field (42_finalize.md R131 to R134). -/
def finalBytes (s : State) : List Byte :=
  s.validBytes ++ [0x80] ++ List.replicate (Reference.zeroCount s.fill) 0x00 ++ be64Bytes s.bitcnt

/-- The bits FINALIZE carries BITCNT to (42_finalize.md R136). -/
def finalCount (s : State) : Nat := s.bitcnt.toNat + 8 * (9 + Reference.zeroCount s.fill)

/-- What FINALIZE does to the state `s` where the padded length fits (42_finalize.md R130 to R139). -/
structure Finalized (s t : State) : Prop where
  phase : t.phase = .finalized
  h : t.h = Reference.chainFrom s.h (finalBytes s) ((finalBytes s).length / 64)
  blocks : (finalBytes s).length = if s.fill ≤ 55 then 64 else 128
  count : t.bitcnt.toNat = finalCount s
  wholeBlocks : t.bitcnt.toNat % 512 = 0
  fill : t.fill = 0
  digest : ∀ k (hk : k < 5) j (_ : j < 4), t.dg[4 * k + j] = t.h[k].extractLsb' (24 - 8 * j) 8
  lastBlock : t.bb.firstBytes 64 = (finalBytes s).drop ((finalBytes s).length - 64)
  outside : ∀ a, 64 ≤ a → t.bb.read a = s.bb.read a
  cix : t.cix = s.cix
  port : t.port = s.port
  resp : t.resp = s.resp

/-- The contract violation of a command in a state, by the causes and the order of 60_exceptions.md R182 and R183; its
encoding has been accepted. `none` where the command executes. For a counter of whole bytes. -/
def violation (i : Instr) (s : State) : Option (Nat → Word → Fault) :=
  match i with
  | .init => none
  | .append0 | .append1 _ | .append2 _ _ | .append3 _ _ _ =>
    if s.phase = .uninit then some .notInitialized
    else if s.phase = .finalized then some .alreadyFinalized
    else if s.bitcnt.toNat + 8 * (payload i).length > 2 ^ 64 - 1 then some .counterOverflow
    else none
  | .finalize =>
    if s.phase = .uninit then some .notInitialized
    else if s.phase = .finalized then some .alreadyFinalized
    else if finalCount s > 2 ^ 64 - 1 then some .counterOverflow
    else none
  | .read reg =>
    if 8 ≤ reg then some .reservedRegister
    else if 1 ≤ reg ∧ reg ≤ 5 ∧ s.phase ≠ .finalized then some .digestNotValid
    else if 6 ≤ reg ∧ s.phase = .uninit then some .counterNotValid
    else none

/-- What holds of the engine between commands. -/
structure State.Inv (s : State) : Prop where
  /-- The block buffer is in canonical form, with addresses 0 to 63 only. -/
  buffer : s.bb.wf = true
  /-- BITCNT counts whole bytes (10_state.md R25). -/
  wholeBytes : s.phase ≠ .uninit → s.bitcnt.toNat % 8 = 0
  /-- In FINALIZED, BITCNT counts whole blocks (10_state.md R47). -/
  wholeBlocks : s.phase = .finalized → s.bitcnt.toNat % 512 = 0
  /-- In FINALIZED, DG holds the words of H (10_state.md R41, 42_finalize.md R139). -/
  digestStored : s.phase = .finalized → s.dg = digestBytes s.h

/-- The engine has absorbed the message `m` since INIT (41_init_append.md R121). -/
structure State.Absorbed (m : List Byte) (s : State) : Prop where
  count : s.bitcnt.toNat = 8 * m.length
  blocks : s.h = Reference.chain m (m.length / 64)
  valid : s.validBytes = m.drop (64 * (m.length / 64))

/-- The engine has finalized the message `m` (42_finalize.md R135 to R139). -/
structure State.Finished (m : List Byte) (s : State) : Prop where
  count : s.bitcnt.toNat = 8 * (Reference.padded m).length
  blocks : s.h = Reference.finalH m
  stored : s.dg = Reference.digest m

/-- In ACCEPTING the engine has absorbed some message, in FINALIZED it has finalized some message. -/
def State.HoldsMessage (s : State) : Prop :=
  match s.phase with
  | .uninit => True
  | .accepting => ∃ m, s.Absorbed m
  | .finalized => ∃ m, s.Finished m

/-- Two engines that agree on all that the spec gives a value to: H, BITCNT and the valid bytes from INIT on, DG in
FINALIZED (10_state.md R46). They may differ in invalid buffer bytes, WR, WS, and in everything reset leaves unspecified. -/
structure State.SameDefined (s t : State) : Prop where
  phase : s.phase = t.phase
  cix : s.cix = t.cix
  port : s.port = t.port
  resp : s.resp = t.resp
  h : s.phase ≠ .uninit → s.h = t.h
  bitcnt : s.phase ≠ .uninit → s.bitcnt = t.bitcnt
  valid : s.phase ≠ .uninit → s.validBytes = t.validBytes
  dg : s.phase = .finalized → s.dg = t.dg

/-- Two outcomes agree: both go on to states related by `R`, or both stop for the same reason. -/
def sameOutcome (R : State → State → Prop) : Host.Outcome State Fault Refusal → Host.Outcome State Fault Refusal → Prop
  | .next s, .next t => R s t
  | .fault f, .fault g => f = g
  | .refused r, .refused q => r = q
  | _, _ => False

end Sys2Proof.Machine
end

