-- ==== Sys2Proof/Certificates/Slice0/Obligations.lean ====
section
/-! DEFINITION. The statements about the engine for the provers, each with the rule of spec/ it follows. -/

open Sys2Proof Sys2Proof.Machine

/-! ### Encoding -/

/-- No bit of an encoding is dropped (30_encoding.md R70 to R75, R80). -/
def Obligations.DecodeOfEncodeIsTheCommand : Prop := ∀ i : Instr, i.wf = true → decode (encode i) = .ok i

/-- A command has one encoding, and what is decoded is well-formed (30_encoding.md R72 to R75, R81). -/
def Obligations.EncodeOfDecodeIsTheWord : Prop := ∀ (w : Word) (i : Instr), decode w = .ok i → encode i = w ∧ i.wf = true

/-- The opcode table is the spec's, a word is a command exactly when a row matches it, and no two rows match one word
(30_encoding.md R81). -/
def Obligations.OpcodeTableDecidesTheCommand : Prop :=
  opcodeTable = [⟨"INIT", 0x10000000, 0xFFFFFFFF⟩, ⟨"APPEND.0", 0x20000000, 0xFFFFFFFF⟩,
    ⟨"APPEND.1", 0x21000000, 0xFF00FFFF⟩, ⟨"APPEND.2", 0x22000000, 0xFF0000FF⟩, ⟨"APPEND.3", 0x23000000, 0xFF000000⟩,
    ⟨"FINALIZE", 0x30000000, 0xFFFFFFFF⟩, ⟨"READ", 0x40000000, 0xFFFFFFF0⟩] ∧
  (∀ (w : Word) (i : Instr), decode w = .ok i → i.row ∈ opcodeTable ∧ i.row.isRowOf w = true) ∧
  (∀ w : Word, ∀ r ∈ opcodeTable, r.isRowOf w = true → ∃ i, decode w = .ok i ∧ i.row = r) ∧
  (∀ w : Word, ∀ r ∈ opcodeTable, ∀ r' ∈ opcodeTable, r.isRowOf w = true → r'.isRowOf w = true → r = r') ∧
  (∀ w : Word, (∀ r ∈ opcodeTable, r.isRowOf w = false) →
    decode w = .error .reservedOpcode ∧ ¬ (1 ≤ field w 28 4 ∧ field w 28 4 ≤ 4) ∨
    decode w = .error .reservedField ∧ 1 ≤ field w 28 4 ∧ field w 28 4 ≤ 4)

/-- Words written out from the spec's encodings decode to the commands they stand for (30_encoding.md R83 to R85; the
words of 95_test_vectors.md section 2.8). -/
def Obligations.WordsOfTheSpecDecode : Prop :=
  decode 0x10000000 = .ok .init ∧ decode 0x20000000 = .ok .append0 ∧ decode 0x21610000 = .ok (.append1 0x61) ∧
  decode 0x22626300 = .ok (.append2 0x62 0x63) ∧ decode 0x23616263 = .ok (.append3 0x61 0x62 0x63) ∧
  decode 0x30000000 = .ok .finalize ∧ decode 0x40000001 = .ok (.read 1) ∧ decode 0x4000000F = .ok (.read 15) ∧
  decode 0x21FF0001 = .error .reservedField ∧ decode 0x24000000 = .error .reservedField ∧
  decode 0x00000000 = .error .reservedOpcode ∧ decode 0x50000000 = .error .reservedOpcode

/-! ### The step -/

/-- A step runs the command decoded from the oldest word of the port, on the state without that word, and counts it when it
has completed (10_state.md R36, 20_memory.md R50, R60). No command is refused. -/
def Obligations.StepRunsTheDecodedCommand : Prop :=
  ∀ (s : State) (w : Word) (rest : List HostInput) (i : Instr),
    s.port = .command w :: rest → decode w = .ok i →
    (∀ t, exec i { s with port := rest } = .next t → step s = .next { t with cix := t.cix + 1 }) ∧
    (∀ f, exec i { s with port := rest } = .fault f → step s = .fault f) ∧
    (∀ r, exec i { s with port := rest } ≠ .refused r)

/-- A reserved command faults with F1 in every state (30_encoding.md R77). -/
def Obligations.ReservedOpcodeFaults : Prop :=
  ∀ (s : State) (w : Word) (rest : List HostInput), s.port = .command w :: rest →
    field w 28 4 = 0 ∨ 5 ≤ field w 28 4 → step s = .fault (.reservedOpcode s.cix w)

/-- A reserved encoding faults with F2 in every state, before the phase or the register is looked at (30_encoding.md R78,
60_exceptions.md R183). -/
def Obligations.ReservedFieldFaults : Prop :=
  ∀ (s : State) (w : Word) (rest : List HostInput), s.port = .command w :: rest →
    (field w 28 4 = 1 ∧ field w 0 28 ≠ 0) ∨ (field w 28 4 = 3 ∧ field w 0 28 ≠ 0) ∨
    (field w 28 4 = 4 ∧ field w 4 24 ≠ 0) ∨
    (field w 28 4 = 2 ∧ (field w 26 2 ≠ 0 ∨ (field w 24 2 = 0 ∧ field w 0 24 ≠ 0) ∨
      (field w 24 2 = 1 ∧ field w 0 16 ≠ 0) ∨ (field w 24 2 = 2 ∧ field w 0 8 ≠ 0))) →
    step s = .fault (.reservedField s.cix w)

/-- Hardware reset writes PHASE, the command index and the response stream, and no other engine state; a run begins in
UNINIT at index 0 with no response and STATUS 0 (70_reset_and_hazards.md R200). That a reset during a run also puts the index
at 0 and empties the response stream is the model's reading, log entry 3. -/
def Obligations.HardwareResetWritesPhaseOnly : Prop :=
  (∀ (s : State) (rest : List HostInput), s.port = .reset :: rest →
    step s = .next { s with phase := .uninit, cix := 0, resp := [], port := rest }) ∧
  State.reset.phase = .uninit ∧ State.reset.cix = 0 ∧ State.reset.resp = [] ∧ statusWord State.reset = 0x00000000

/-- With no input pending the engine waits and holds its state. The model's reading of 20_memory.md R56 and
60_exceptions.md R195, log entry 3. -/
def Obligations.EngineWithoutInputHoldsItsState : Prop := ∀ s : State, s.port = [] → step s = .next s

/-- A fault of the step is of the oldest command of the port: its index, its word (60_exceptions.md R182). -/
def Obligations.FaultRecordsIndexAndWord : Prop :=
  ∀ (s : State) (f : Fault), step s = .fault f →
    ∃ (w : Word) (rest : List HostInput), s.port = .command w :: rest ∧
      f ∈ [Fault.reservedOpcode s.cix w, .reservedField s.cix w, .notInitialized s.cix w, .alreadyFinalized s.cix w,
        .reservedRegister s.cix w, .digestNotValid s.cix w, .counterNotValid s.cix w, .counterOverflow s.cix w]

/-- The fault of the oldest command is the same whatever is pending behind it, and it ends the run: from any state that a
run reaches, with any further inputs behind, what the run shows is that fault and the words emitted before it
(60_exceptions.md R184, 20_memory.md R67; that a pending reset does not end a fault either is log entry 7). -/
def Obligations.FaultIsTerminal : Prop :=
  (∀ (s : State) (w : Word) (rest rest' : List HostInput) (f : Fault),
    s.port = .command w :: rest → step s = .fault f →
    step { s with port := .command w :: rest' } = .fault f ∧
    observation { s with port := .command w :: rest' } = .faulted f s.resp) ∧
  (∀ (s t : State) (f : Fault) (k : Nat) (later : List HostInput), core.run k s = .next t → step t = .fault f →
    observation { s with port := s.port ++ later } = .faulted f t.resp)

/-- A command completes exactly where it violates no rule of the contract, and otherwise faults with the first code that
applies, its index and its word (60_exceptions.md R182, R183). -/
def Obligations.CommandFaultsExactlyOnViolation : Prop :=
  ∀ (i : Instr) (s : State), i.wf = true → (s.phase ≠ .uninit → s.bitcnt.toNat % 8 = 0) →
    (∀ c, violation i s = some c → exec i s = .fault (c s.cix (encode i))) ∧
    (violation i s = none → ∃ t, exec i s = .next t)

/-! ### INIT -/

/-- INIT in every phase, the end of the old digest, and the words with INIT's opcode that are not INIT (41_init_append.md
R110). -/
def Obligations.InitStartsAMessage : Prop :=
  (∀ s : State, ∃ t, exec .init s = .next t ∧
    t.h = #v[0x67452301, 0xEFCDAB89, 0x98BADCFE, 0x10325476, 0xC3D2E1F0] ∧ t.bitcnt = 0 ∧ (∀ a, t.bb.read a = 0x00) ∧
    t.phase = .accepting ∧ statusWord t = 0x00000001 ∧
    t.dg = s.dg ∧ t.wr = s.wr ∧ t.ws = s.ws ∧ t.cix = s.cix ∧ t.port = s.port ∧ t.resp = s.resp ∧
    ∀ k < 5, exec (.read (k + 1)) t = .fault (.digestNotValid t.cix (0x40000001 + BitVec.ofNat 32 k))) ∧
  decode 0x10000000 = .ok .init ∧
  ∀ w : Word, field w 28 4 = 1 → field w 0 28 ≠ 0 → decode w = .error .reservedField

/-- INIT is idempotent (20_memory.md R59), whatever was absorbed or finalized before it. -/
def Obligations.InitIsIdempotent : Prop :=
  ∀ s t : State, exec .init s = .next t → exec .init t = .next t

/-! ### APPEND -/

/-- APPEND with no byte changes no state in ACCEPTING (41_init_append.md R115). -/
def Obligations.AppendOfNoByteChangesNothing : Prop :=
  ∀ s : State,
    (s.phase = .accepting → exec .append0 s = .next s) ∧
    (s.phase = .uninit → exec .append0 s = .fault (.notInitialized s.cix 0x20000000)) ∧
    (s.phase = .finalized → exec .append0 s = .fault (.alreadyFinalized s.cix 0x20000000))

/-- APPEND with one byte (41_init_append.md R116). -/
def Obligations.AppendOfOneByte : Prop :=
  ∀ (s : State) (b0 : Byte),
    (s.phase = .accepting → s.bitcnt.toNat ≤ 2 ^ 64 - 9 → ∃ t, exec (.append1 b0) s = .next t ∧ Appended [b0] s t) ∧
    (s.phase = .accepting → s.bitcnt.toNat > 2 ^ 64 - 9 →
      exec (.append1 b0) s = .fault (.counterOverflow s.cix (0x21#8 ++ b0 ++ 0x0000#16))) ∧
    (s.phase = .uninit → exec (.append1 b0) s = .fault (.notInitialized s.cix (0x21#8 ++ b0 ++ 0x0000#16))) ∧
    (s.phase = .finalized → exec (.append1 b0) s = .fault (.alreadyFinalized s.cix (0x21#8 ++ b0 ++ 0x0000#16)))

/-- APPEND with two bytes (41_init_append.md R117). -/
def Obligations.AppendOfTwoBytes : Prop :=
  ∀ (s : State) (b0 b1 : Byte),
    (s.phase = .accepting → s.bitcnt.toNat ≤ 2 ^ 64 - 17 →
      ∃ t, exec (.append2 b0 b1) s = .next t ∧ Appended [b0, b1] s t) ∧
    (s.phase = .accepting → s.bitcnt.toNat > 2 ^ 64 - 17 →
      exec (.append2 b0 b1) s = .fault (.counterOverflow s.cix (0x22#8 ++ b0 ++ b1 ++ 0x00#8))) ∧
    (s.phase = .uninit → exec (.append2 b0 b1) s = .fault (.notInitialized s.cix (0x22#8 ++ b0 ++ b1 ++ 0x00#8))) ∧
    (s.phase = .finalized → exec (.append2 b0 b1) s = .fault (.alreadyFinalized s.cix (0x22#8 ++ b0 ++ b1 ++ 0x00#8)))

/-- APPEND with three bytes (41_init_append.md R118). -/
def Obligations.AppendOfThreeBytes : Prop :=
  ∀ (s : State) (b0 b1 b2 : Byte),
    (s.phase = .accepting → s.bitcnt.toNat ≤ 2 ^ 64 - 25 →
      ∃ t, exec (.append3 b0 b1 b2) s = .next t ∧ Appended [b0, b1, b2] s t) ∧
    (s.phase = .accepting → s.bitcnt.toNat > 2 ^ 64 - 25 →
      exec (.append3 b0 b1 b2) s = .fault (.counterOverflow s.cix (0x23#8 ++ b0 ++ b1 ++ b2))) ∧
    (s.phase = .uninit → exec (.append3 b0 b1 b2) s = .fault (.notInitialized s.cix (0x23#8 ++ b0 ++ b1 ++ b2))) ∧
    (s.phase = .finalized → exec (.append3 b0 b1 b2) s = .fault (.alreadyFinalized s.cix (0x23#8 ++ b0 ++ b1 ++ b2)))

/-- What one absorb does: the blocks it completes, in stream order, and the remainder (41_init_append.md R120). -/
def Obligations.AbsorbCompressesTheBlocksItCompletes : Prop :=
  ∀ (p : List Byte) (s : State), s.bitcnt.toNat + 8 * p.length ≤ 2 ^ 64 - 1 → ∃ t, absorb p s = some t ∧
    t.bitcnt.toNat = s.bitcnt.toNat + 8 * p.length ∧
    t.fill = (s.fill + p.length) % 64 ∧
    t.h = Reference.chainFrom s.h (s.validBytes ++ p) ((s.fill + p.length) / 64) ∧
    t.validBytes = (s.validBytes ++ p).drop (64 * ((s.fill + p.length) / 64))

/-- Chunking invariance: two absorbs are one absorb of the concatenation (41_init_append.md R119), and overflow in the one
exactly where in the other. R119 gives H, BITCNT and the valid bytes; that the invalid bytes BB[FILL..63] agree too is the
model's choice of the byte form of absorb, log entry 4. -/
def Obligations.AbsorbOfConcatenation : Prop :=
  ∀ (p q : List Byte) (s : State), (absorb p s).bind (absorb q) = absorb (p ++ q) s

/-- Any sequence of APPEND commands is one absorb of the concatenated payloads (41_init_append.md R119). That the two end in
the same state with the invalid bytes BB[FILL..63] is the model's choice of the byte form of absorb, log entry 4. -/
def Obligations.AppendSequenceIsOneAbsorb : Prop :=
  ∀ (is : List Instr) (s t : State), (∀ i ∈ is, isAppend i = true) → s.phase = .accepting →
    absorb (is.flatMap payload) s = some t → execAll is s = .next t

/-- After any sequence of absorbs since INIT (41_init_append.md R121). -/
def Obligations.AbsorbsSinceInitHoldTheMessage : Prop :=
  ∀ (s : State) (chunks : List (List Byte)), chunks.flatten.length < 2 ^ 61 →
    ∃ t, chunks.foldlM (fun u p => absorb p u) s.startMessage = some t ∧ t.Absorbed chunks.flatten

/-- The source's absorb by blocks and the hardware's absorb by bytes agree on H, BITCNT and the valid bytes, and on the rest
of the state but invalid buffer bytes (41_init_append.md R112, R114). -/
def Obligations.AbsorbByBlocksAgreesWithBytewise : Prop :=
  ∀ (p : List Byte) (s : State),
    match Reference.absorb p s, absorb p s with
    | some t, some u => t.h = u.h ∧ t.bitcnt = u.bitcnt ∧ t.validBytes = u.validBytes ∧
        t.wr = u.wr ∧ t.ws = u.ws ∧ t.dg = u.dg ∧ t.phase = u.phase ∧ t.cix = u.cix ∧ t.port = u.port ∧ t.resp = u.resp
    | none, none => True
    | _, _ => False

/-! ### FINALIZE -/

/-- FINALIZE of a counter of whole bytes whose padded length fits (42_finalize.md R130 to R136, R139). -/
def Obligations.FinalizePadsAndStoresTheDigest : Prop :=
  ∀ s : State, s.phase = .accepting → s.bitcnt.toNat % 8 = 0 → finalCount s ≤ 2 ^ 64 - 1 →
    ∃ t, exec .finalize s = .next t ∧ Finalized s t

/-- FINALIZE faults with F8 exactly when the padded length exceeds the counter (42_finalize.md R138); before INIT and
after FINALIZE it faults with F3 and F4 (60_exceptions.md R182). -/
def Obligations.FinalizeFaults : Prop :=
  ∀ s : State,
    (s.phase = .accepting → s.bitcnt.toNat % 8 = 0 →
      (exec .finalize s = .fault (.counterOverflow s.cix 0x30000000) ↔ finalCount s > 2 ^ 64 - 1)) ∧
    (s.phase = .uninit → exec .finalize s = .fault (.notInitialized s.cix 0x30000000)) ∧
    (s.phase = .finalized → exec .finalize s = .fault (.alreadyFinalized s.cix 0x30000000))

/-- z zero bytes (42_finalize.md R133) make the padded length a whole number of blocks (R134): one where r is at most 55,
two from 56. -/
def Obligations.PaddingIsAWholeNumberOfBlocks : Prop :=
  ∀ r, r < 64 → Reference.zeroCount r < 64 ∧
    (r ≤ 55 → Reference.zeroCount r = 55 - r ∧ r + 1 + Reference.zeroCount r + 8 = 64) ∧
    (56 ≤ r → Reference.zeroCount r = 119 - r ∧ r + 1 + Reference.zeroCount r + 8 = 128)

/-- In FINALIZED, DIGESTk is H[k] (10_state.md R41). -/
def Obligations.DigestRegisterIsTheChainingWord : Prop :=
  ∀ (s : State) (k : Nat) (hk : k < 5), s.Inv → s.phase = .finalized →
    exec (.read (k + 1)) s = .next { s with resp := s.resp ++ [s.h[k]] }

/-! ### READ -/

/-- READ STATUS in every phase: PHASE in [1:0], FILL in [13:8] (0 in UNINIT), every other bit 0 (44_read.md R173). -/
def Obligations.ReadStatusEmitsPhaseAndFill : Prop :=
  ∀ s : State, ∃ w : Word, exec (.read 0) s = .next { s with resp := s.resp ++ [w] } ∧
    field w 0 2 = (match s.phase with | .uninit => 0 | .accepting => 1 | .finalized => 2) ∧ field w 2 6 = 0 ∧
    field w 8 6 = (if s.phase = .uninit then 0 else s.bitcnt.toNat / 8 % 64) ∧ field w 14 18 = 0

/-- READ DIGESTk in FINALIZED emits the digest bytes 4k to 4k + 3, the first in bits [31:24]; elsewhere it is F6
(44_read.md R172, 20_memory.md R52). -/
def Obligations.ReadDigestEmitsFourBytes : Prop :=
  ∀ (s : State) (k : Nat) (_ : k < 5),
    (s.phase = .finalized → ∃ w : Word, exec (.read (k + 1)) s = .next { s with resp := s.resp ++ [w] } ∧
      ∀ j (_ : j < 4), w.extractLsb' (24 - 8 * j) 8 = s.dg[4 * k + j]) ∧
    (s.phase ≠ .finalized →
      exec (.read (k + 1)) s = .fault (.digestNotValid s.cix (0x40000001 + BitVec.ofNat 32 k)))

/-- READ BITCNT_LO and BITCNT_HI emit the halves of the counter; in UNINIT they are F7 (44_read.md R174, 10_state.md R42). -/
def Obligations.ReadCounterEmitsItsHalves : Prop :=
  ∀ s : State,
    (s.phase ≠ .uninit → ∃ lo hi : Word, exec (.read 6) s = .next { s with resp := s.resp ++ [lo] } ∧
      exec (.read 7) s = .next { s with resp := s.resp ++ [hi] } ∧ s.bitcnt.toNat = hi.toNat * 2 ^ 32 + lo.toNat) ∧
    (s.phase = .uninit → exec (.read 6) s = .fault (.counterNotValid s.cix 0x40000006) ∧
      exec (.read 7) s = .fault (.counterNotValid s.cix 0x40000007))

/-- READ of an index from 8 to 15 is F5 in every phase (44_read.md R171). -/
def Obligations.ReadOfReservedRegisterFaults : Prop :=
  ∀ (s : State) (reg : Nat), 8 ≤ reg → reg ≤ 15 →
    exec (.read reg) s = .fault (.reservedRegister s.cix (0x40000000 + BitVec.ofNat 32 reg))

/-- A READ that does not fault adds one word to the response stream and changes nothing else, and a second READ of the
register emits the same word (44_read.md R175, 20_memory.md R59). -/
def Obligations.ReadHasNoSideEffect : Prop :=
  ∀ (s t : State) (reg : Nat), exec (.read reg) s = .next t →
    ∃ w : Word, t = { s with resp := s.resp ++ [w] } ∧ exec (.read reg) t = .next { s with resp := s.resp ++ [w, w] }

/-! ### The rotator and the compression function -/

/-- Bit `i` of a rotation is bit `(i - n) mod 32`, or `(i + n) mod 32`, of the word (40_rotation.md R100, R101). -/
def Obligations.RotationMovesEachBit : Prop :=
  ∀ (x : Word) (n : Int) (i : Nat), i < 32 →
    (rotl32 x n).getLsbD i = x.getLsbD (((i : Int) - n) % 32).toNat ∧
    (rotr32 x n).getLsbD i = x.getLsbD (((i : Int) + n) % 32).toNat

/-- The laws of the rotator (40_rotation.md R104). -/
def Obligations.RotationLaws : Prop :=
  (∀ (x : Word) (n : Int), rotl32 x n = rotr32 x (32 - n) ∧ rotl32 x n = rotr32 x (-n)) ∧
  (∀ (x : Word) (n k : Int), rotl32 (rotl32 x n) k = rotl32 x (n + k)) ∧
  (∀ n : Int, Function.Bijective fun x => rotl32 x n) ∧
  (∀ n : Int, rotl32 0 n = 0 ∧ rotl32 0xFFFFFFFF n = 0xFFFFFFFF) ∧
  (∀ (x y : Word) (n : Int), rotl32 (x &&& y) n = rotl32 x n &&& rotl32 y n ∧
    rotl32 (x ||| y) n = rotl32 x n ||| rotl32 y n ∧ rotl32 (x ^^^ y) n = rotl32 x n ^^^ rotl32 y n ∧
    rotl32 (~~~x) n = ~~~(rotl32 x n))

/-- The stage functions and constants of the 80 rounds (43_compression.md R155). -/
def Obligations.StageFunctionsAndConstants : Prop :=
  ∀ (t : Nat) (b c d : Word), t < 80 →
    stageFn t b c d = (if t < 20 then (b &&& (c ^^^ d)) ^^^ d else if t < 40 then b ^^^ c ^^^ d
      else if t < 60 then (b &&& c) ||| (b &&& d) ||| (c &&& d) else b ^^^ c ^^^ d) ∧
    stageConst t = (if t < 20 then 0x5A827999 else if t < 40 then 0x6ED9EBA1 else if t < 60 then 0x8F1BBCDC
      else 0xCA62C1D6)

/-- Bit identities of the stage functions: choice and majority (43_compression.md R162). -/
def Obligations.StageFunctionsChooseAndVote : Prop :=
  (∀ (t : Nat) (b c d : Word), t < 20 → stageFn t b c d = (b &&& c) ||| (~~~b &&& d)) ∧
  (∀ (t : Nat) (b c d : Word) (i : Nat), 40 ≤ t → t < 60 → ((stageFn t b c d).getLsbD i = true ↔
    2 ≤ (b.getLsbD i).toNat + (c.getLsbD i).toNat + (d.getLsbD i).toNat)) ∧
  (∀ c d : Word, stageFn 0 0 c d = d ∧ stageFn 0 0xFFFFFFFF c d = c) ∧ (∀ x y : Word, stageFn 40 x x y = x)

/-- The circular buffer holds W[t] at round t: the block's words, then the 80-word recurrence (43_compression.md R151 to
R153). -/
def Obligations.CircularBufferHoldsTheSchedule : Prop :=
  ∀ (h : Vector Word 5) (blk : Vector Byte 64) (t : Nat), t < 80 →
    slot (runRounds (t + 1) (.start h blk)).ws t = Reference.scheduleWord blk t ∧
    (∀ ht : t < 16, Reference.scheduleWord blk t = blk[4 * t] ++ blk[4 * t + 1] ++ blk[4 * t + 2] ++ blk[4 * t + 3]) ∧
    (16 ≤ t → Reference.scheduleWord blk t = rotl32 (Reference.scheduleWord blk (t - 3) ^^^
      Reference.scheduleWord blk (t - 8) ^^^ Reference.scheduleWord blk (t - 14) ^^^ Reference.scheduleWord blk (t - 16)) 1)

/-- A round in the rotating-role form is a round of the shift register, under the role names (43_compression.md R157). -/
def Obligations.RoundIsShiftRound : Prop :=
  ∀ (t : Nat) (wt : Word) (wr : Vector Word 5),
    Reference.rolesOf (t + 1) (oneRound t wt wr) = Reference.shiftRound t wt (Reference.rolesOf t wr)

/-- The compression the engine runs, on its circular buffer and rotating roles, is the shift-register compression on the
80-word schedule (43_compression.md R150, R153, R157 to R159). -/
def Obligations.CompressionAgreesWithTheReference : Prop :=
  ∀ (h : Vector Word 5) (blk : Vector Byte 64), compressed h blk = Reference.compressed h blk

/-- A compression reads H and the block alone, writes H, WR and WS alone, and adds each working register into its word of H
(43_compression.md R159, R163). -/
def Obligations.CompressionReadsAndWritesOnlyItsRegisters : Prop :=
  ∀ (blk : Vector Byte 64) (s t : State),
    (s.h = t.h → (compress blk s).h = (compress blk t).h ∧ (compress blk s).wr = (compress blk t).wr ∧
      (compress blk s).ws = (compress blk t).ws) ∧
    (∀ k (_ : k < 5), (compress blk s).h[k] = s.h[k] + (compress blk s).wr[k]) ∧
    compress blk s = { s with h := (compress blk s).h, wr := (compress blk s).wr, ws := (compress blk s).ws }

/-! ### Rules of the whole machine -/

/-- Every step keeps the invariant between commands (10_state.md R25, R41, R47). -/
def Obligations.StepKeepsTheInvariant : Prop := ∀ s t : State, s.Inv → step s = .next t → t.Inv

/-- The invariant holds after reset. For BITCNT, BB and DG it asks nothing in UNINIT but the canonical form of the model's
own list, so it rests on no value the model chose. -/
def Obligations.ResetHasTheInvariant : Prop := State.reset.Inv

/-- Every step keeps this: in ACCEPTING the engine has absorbed some message, in FINALIZED it holds the digest of some
message (41_init_append.md R121, 42_finalize.md R137). -/
def Obligations.StepKeepsTheMessage : Prop := ∀ s t : State, s.HoldsMessage → step s = .next t → t.HoldsMessage

/-- PHASE changes by reset, INIT and FINALIZE only (10_state.md R21). That an engine with nothing pending has a step, which
leaves PHASE, is the model's reading of 60_exceptions.md R195, log entry 3. -/
def Obligations.PhaseChangesByLifeCycleOnly : Prop :=
  ∀ s t : State, step s = .next t →
    (s.port = [] → t.phase = s.phase) ∧
    (∀ rest, s.port = .reset :: rest → t.phase = .uninit) ∧
    (∀ w rest, s.port = .command w :: rest →
      (decode w = .ok .init → t.phase = .accepting) ∧
      (decode w = .ok .finalize → s.phase = .accepting ∧ t.phase = .finalized) ∧
      (∀ i, decode w = .ok i → isAppend i = true → s.phase = .accepting ∧ t.phase = .accepting) ∧
      (∀ reg, decode w = .ok (.read reg) → t.phase = s.phase))

/-- H is written by INIT and by compressions only: READ and an APPEND that completes no block leave it (10_state.md R23). -/
def Obligations.ChainingStateChangesByInitAndBlocksOnly : Prop :=
  ∀ (i : Instr) (s t : State), exec i s = .next t → t.h ≠ s.h →
    i = .init ∨ i = .finalize ∨ (isAppend i = true ∧ 64 ≤ s.fill + (payload i).length)

/-- BITCNT never decreases but by INIT (10_state.md R26). -/
def Obligations.CounterNeverDecreases : Prop :=
  ∀ (i : Instr) (s t : State), exec i s = .next t → i ≠ .init → s.bitcnt.toNat ≤ t.bitcnt.toNat

/-- DG is written by FINALIZE only, and the response stream by READ only, one word each (10_state.md R30, 20_memory.md R51);
no command touches the port or the command index by itself (10_state.md R36). -/
def Obligations.DigestAndResponsesHaveOneWriter : Prop :=
  ∀ (i : Instr) (s t : State), exec i s = .next t →
    (i ≠ .finalize → t.dg = s.dg) ∧
    ((∃ reg w, i = .read reg ∧ t.resp = s.resp ++ [w]) ∨ ((∀ reg, i ≠ .read reg) ∧ t.resp = s.resp)) ∧
    t.port = s.port ∧ t.cix = s.cix

/-- The command index starts at 0 and advances by exactly 1 per command (10_state.md R36). -/
def Obligations.CommandIndexCountsCommands : Prop :=
  State.reset.cix = 0 ∧
  ∀ s t : State, step s = .next t →
    ∀ w rest, s.port = .command w :: rest → t.cix = s.cix + 1 ∧ t.port = rest

/-- Nothing the host sees depends on a value the spec leaves unspecified: two engines that agree on every defined value take
the same step, to engines that agree again or to the same fault (10_state.md R29, R32, R33, R46, 70_reset_and_hazards.md
R201). -/
def Obligations.UnspecifiedValuesAreNeverSeen : Prop :=
  ∀ s t : State, s.SameDefined t → sameOutcome State.SameDefined (step s) (step t)

/-! ### Pseudo-instructions and whole messages -/

/-- APPENDS: the APPENDs carry the bytes in order, three each but the last, `ceil(n / 3)` of them (30_encoding.md R90). -/
def Obligations.AppendsCarriesTheBytesInOrder : Prop :=
  ∀ bs : List Byte,
    (Assembler.appends bs).flatMap payload = bs ∧ (Assembler.appends bs).length = (bs.length + 2) / 3 ∧
    ∀ k i, (Assembler.appends bs)[k]? = some i → isAppend i = true ∧ payload i = (bs.drop (3 * k)).take 3

/-- HASH m and then READDIGEST, from any state: the five response words are the digest of `m` in the closed form, and the
engine is FINALIZED with the length of the padded message (42_finalize.md R137, 30_encoding.md R91, R92). -/
def Obligations.HashThenReadDigestReturnsTheDigest : Prop :=
  ∀ (m : List Byte) (s : State) (rest : List HostInput), Reference.paddedFits m →
    s.port = asInputs (Assembler.hash m ++ Assembler.readDigest) ++ rest →
    ∃ t, core.run (Assembler.hash m ++ Assembler.readDigest).length s = .next t ∧
      t.resp = s.resp ++ (Reference.finalH m).toList ∧ t.phase = .finalized ∧ t.Finished m ∧
      t.cix = s.cix + (Assembler.hash m ++ Assembler.readDigest).length ∧ t.port = rest

/-- The padded message is the message, 0x80, z bytes 0x00 and the length in bits, a whole number of blocks (42_finalize.md
R137). -/
def Obligations.PaddedMessageIsWholeBlocks : Prop :=
  ∀ m : List Byte, Reference.paddedFits m →
    (Reference.padded m).length % 64 = 0 ∧ (Reference.padded m).length = m.length + 9 + Reference.zeroCount m.length ∧
    (Reference.padded m).take (m.length + 1) = m ++ [0x80] ∧
    (∀ j < Reference.zeroCount m.length, (Reference.padded m)[m.length + 1 + j]? = some 0x00) ∧
    ∀ j (_ : j < 8), (Reference.padded m)[(Reference.padded m).length - 8 + j]? =
      some (BitVec.ofNat 8 (8 * m.length / 2 ^ (56 - 8 * j)))

/-! ### The platform -/

/-- Engines are independent: a step of one leaves every other as it was, and the order of steps of two engines does not
matter (60_exceptions.md R192). -/
def Obligations.EnginesAreIndependent : Prop :=
  1 ≤ Config.nEngines ∧
  (∀ (p : Platform) (j k : Nat), j ≠ k → (p.stepEngine k)[j]? = p[j]?) ∧
  (∀ (p : Platform) (k : Nat) (s : State), p[k]? = some (.next s) → (p.stepEngine k)[k]? = some (step s)) ∧
  (∀ (p : Platform) (j k : Nat), j ≠ k → (p.stepEngine j).stepEngine k = (p.stepEngine k).stepEngine j)
end

