-- ==== Sys2Proof/Laws/Memory.lean ====
section
/-! SUPPORT. The block buffer as a store: a read after a write, the canonical form, and the two whole reads. -/

namespace Sys2Proof.Machine

@[simp] theorem Memory.read_nil (y : Nat) : Memory.read [] y = unlistedByte := rfl

theorem Memory.read_cons (a : Nat) (b : Byte) (rest : Memory) (y : Nat) :
    Memory.read ((a, b) :: rest) y = if y = a then b else Memory.read rest y := rfl

@[simp] theorem Memory.read_zeroed (y : Nat) : Memory.zeroed.read y = 0x00 := rfl

theorem Memory.read_without (m : Memory) (x y : Nat) :
    (m.without x).read y = if y = x then unlistedByte else m.read y := by
  induction m with
  | nil => simp [Memory.without]
  | cons c rest ih =>
    obtain ⟨a, b⟩ := c
    simp only [Memory.without] at ih ⊢
    by_cases ha : a = x
    · subst ha
      simp only [List.filter_cons, bne_self_eq_false, Bool.false_eq_true, if_false, ih, Memory.read_cons]
      split <;> rfl
    · simp only [List.filter_cons, bne_iff_ne, ne_eq, ha, not_false_eq_true, if_true, Memory.read_cons, ih]
      split <;> split <;> simp_all

theorem Memory.read_insertCell (x : Nat) (v : Byte) (m : Memory) (hm : ∀ c ∈ m, c.1 ≠ x) (y : Nat) :
    (Memory.insertCell x v m).read y = if y = x then v else m.read y := by
  induction m with
  | nil => rfl
  | cons c rest ih =>
    obtain ⟨a, b⟩ := c
    have ha : a ≠ x := hm (a, b) (by simp)
    have ih := ih fun c hc => hm c (by simp [hc])
    unfold Memory.insertCell
    split
    · rfl
    · simp only [Memory.read_cons, ih]
      split <;> split <;> simp_all

theorem Memory.without_ne (m : Memory) (x : Nat) : ∀ c ∈ m.without x, c.1 ≠ x := by
  intro c hc
  simpa using (List.mem_filter.1 hc).2

/-- A read after a write: the byte written at its address, every other byte as before. -/
theorem Memory.read_write (m : Memory) (x : Nat) (v : Byte) (y : Nat) :
    (m.write x v).read y = if y = x then v else m.read y := by
  unfold Memory.write
  split
  · rename_i h; rw [Memory.read_without, h]
  · rw [Memory.read_insertCell x v _ (m.without_ne x), Memory.read_without]
    split <;> rfl

@[simp] theorem Memory.read_write_same (m : Memory) (x : Nat) (v : Byte) : (m.write x v).read x = v := by
  rw [Memory.read_write, if_pos rfl]

theorem Memory.read_write_other (m : Memory) {x y : Nat} (v : Byte) (h : y ≠ x) : (m.write x v).read y = m.read y := by
  rw [Memory.read_write, if_neg h]

theorem Memory.wfFrom_mono {lo lo' : Nat} {m : Memory} (hle : lo' ≤ lo) (h : m.wfFrom lo = true) : m.wfFrom lo' = true := by
  cases m with
  | nil => rfl
  | cons c rest =>
    obtain ⟨a, b⟩ := c
    simp only [Memory.wfFrom, Bool.and_eq_true, decide_eq_true_eq] at h ⊢
    exact ⟨⟨⟨by omega, h.1.1.2⟩, h.1.2⟩, h.2⟩

theorem Memory.wfFrom_without {lo : Nat} {m : Memory} (x : Nat) (h : m.wfFrom lo = true) :
    (m.without x).wfFrom lo = true := by
  induction m generalizing lo with
  | nil => rfl
  | cons c rest ih =>
    obtain ⟨a, b⟩ := c
    simp only [Memory.wfFrom, Bool.and_eq_true, decide_eq_true_eq] at h
    have ih := ih h.2
    simp only [Memory.without] at ih ⊢
    by_cases ha : a = x
    · simp only [List.filter_cons, ha, bne_self_eq_false, Bool.false_eq_true, if_false]
      exact Memory.wfFrom_mono (by omega) (ha ▸ ih)
    · simp only [List.filter_cons, bne_iff_ne, ne_eq, ha, not_false_eq_true, if_true, Memory.wfFrom, Bool.and_eq_true,
        decide_eq_true_eq]
      exact ⟨⟨⟨h.1.1.1, h.1.1.2⟩, by simpa using h.1.2⟩, ih⟩

theorem Memory.wfFrom_insertCell {lo : Nat} {m : Memory} {x : Nat} {v : Byte} (hlo : lo ≤ x) (hx : x < 64)
    (hv : v ≠ unlistedByte) (hm : ∀ c ∈ m, c.1 ≠ x) (h : m.wfFrom lo = true) :
    (Memory.insertCell x v m).wfFrom lo = true := by
  induction m generalizing lo with
  | nil => simp [Memory.insertCell, Memory.wfFrom, hlo, hx, hv]
  | cons c rest ih =>
    obtain ⟨a, b⟩ := c
    have ha : a ≠ x := hm (a, b) (by simp)
    simp only [Memory.wfFrom, Bool.and_eq_true, decide_eq_true_eq] at h
    unfold Memory.insertCell
    split
    · simp only [Memory.wfFrom, Bool.and_eq_true, decide_eq_true_eq]
      exact ⟨⟨⟨hlo, hx⟩, by simpa using hv⟩, ⟨⟨⟨by omega, h.1.1.2⟩, h.1.2⟩, h.2⟩⟩
    · simp only [Memory.wfFrom, Bool.and_eq_true, decide_eq_true_eq]
      exact ⟨h.1, ih (by omega) (fun c hc => hm c (by simp [hc])) h.2⟩

/-- A write inside the buffer keeps the canonical form. -/
theorem Memory.wf_write {m : Memory} {x : Nat} (v : Byte) (hx : x < 64) (h : m.wf = true) : (m.write x v).wf = true := by
  unfold Memory.write
  split
  · exact Memory.wfFrom_without x h
  · rename_i hv
    exact Memory.wfFrom_insertCell (Nat.zero_le x) hx hv (m.without_ne x) (Memory.wfFrom_without x h)

@[simp] theorem Memory.wf_zeroed : Memory.zeroed.wf = true := rfl

theorem Memory.wf_writeBytes {m : Memory} {x : Nat} (vs : List Byte) (hx : x + vs.length ≤ 64) (h : m.wf = true) :
    (m.writeBytes x vs).wf = true := by
  induction vs generalizing m x with
  | nil => exact h
  | cons v vs ih =>
    simp only [List.length_cons] at hx
    exact ih (by omega) (Memory.wf_write v (by omega) h)

/-- In canonical form an address below the first bound is not listed. -/
theorem Memory.read_of_lt {lo : Nat} {m : Memory} (h : m.wfFrom lo = true) {x : Nat} (hx : x < lo) :
    m.read x = unlistedByte := by
  induction m generalizing lo with
  | nil => rfl
  | cons c rest ih =>
    obtain ⟨a, b⟩ := c
    simp only [Memory.wfFrom, Bool.and_eq_true, decide_eq_true_eq] at h
    rw [Memory.read_cons, if_neg (by omega)]
    exact ih h.2 (by omega)

theorem Memory.eq_of_read_from {lo : Nat} {m m' : Memory} (h : m.wfFrom lo = true) (h' : m'.wfFrom lo = true)
    (hr : ∀ x, m.read x = m'.read x) : m = m' := by
  induction m generalizing lo m' with
  | nil =>
    cases m' with
    | nil => rfl
    | cons c rest =>
      obtain ⟨a, b⟩ := c
      simp only [Memory.wfFrom, Bool.and_eq_true, decide_eq_true_eq] at h'
      have := hr a
      rw [Memory.read_cons, if_pos rfl] at this
      simp [← this] at h'
  | cons c rest ih =>
    obtain ⟨a, b⟩ := c
    simp only [Memory.wfFrom, Bool.and_eq_true, decide_eq_true_eq, bne_iff_ne] at h
    cases m' with
    | nil =>
      have := hr a
      rw [Memory.read_cons, if_pos rfl] at this
      exact absurd this h.1.2
    | cons c' rest' =>
      obtain ⟨a', b'⟩ := c'
      simp only [Memory.wfFrom, Bool.and_eq_true, decide_eq_true_eq, bne_iff_ne] at h'
      have ha := hr a
      have ha' := hr a'
      have hle : ¬ a < a' := fun hlt => by
        rw [Memory.read_cons, if_pos rfl, Memory.read_cons, if_neg (by omega),
          Memory.read_of_lt h'.2 (by omega)] at ha
        exact h.1.2 ha
      have hge : ¬ a' < a := fun hlt => by
        rw [Memory.read_cons, if_neg (by omega), Memory.read_of_lt h.2 (by omega), Memory.read_cons, if_pos rfl] at ha'
        exact h'.1.2 ha'.symm
      obtain rfl : a = a' := by omega
      rw [Memory.read_cons, if_pos rfl, Memory.read_cons, if_pos rfl] at ha
      subst ha
      rw [ih h.2 h'.2 fun x => ?_]
      by_cases hx : x = a
      · rw [hx, Memory.read_of_lt h.2 (by omega), Memory.read_of_lt h'.2 (by omega)]
      · have := hr x
        rwa [Memory.read_cons, if_neg hx, Memory.read_cons, if_neg hx] at this

/-- Two canonical buffers that read the same are equal lists. -/
theorem Memory.eq_of_read {m m' : Memory} (h : m.wf = true) (h' : m'.wf = true) (hr : ∀ x, m.read x = m'.read x) :
    m = m' := Memory.eq_of_read_from h h' hr

@[simp] theorem Memory.block_getElem (m : Memory) (i : Nat) (h : i < 64) : m.block[i] = m.read i := by
  simp [Memory.block]

@[simp] theorem Memory.length_firstBytes (m : Memory) (n : Nat) : (m.firstBytes n).length = n := by
  simp [Memory.firstBytes]

@[simp] theorem Memory.firstBytes_zero (m : Memory) : m.firstBytes 0 = [] := rfl

@[simp] theorem Memory.getElem_firstBytes (m : Memory) (n i : Nat) (h : i < (m.firstBytes n).length) :
    (m.firstBytes n)[i] = m.read i := by
  simp [Memory.firstBytes]

/-- Writing the byte after the first `n` makes them `n + 1`. -/
theorem Memory.firstBytes_write (m : Memory) (n : Nat) (v : Byte) :
    (m.write n v).firstBytes (n + 1) = m.firstBytes n ++ [v] := by
  simp only [Memory.firstBytes, List.range_succ, List.map_append, List.map_cons, List.map_nil, Memory.read_write_same,
    List.append_cancel_right_eq]
  refine List.map_congr_left fun x hx => m.read_write_other v ?_
  have := List.mem_range.1 hx
  omega

/-- Two buffers with the same first `n` bytes read the same below `n`. -/
theorem Memory.firstBytes_eq_iff (m m' : Memory) (n : Nat) :
    m.firstBytes n = m'.firstBytes n ↔ ∀ x < n, m.read x = m'.read x := by
  simp [Memory.firstBytes]

end Sys2Proof.Machine
end

