-- ==== Sys2Proof/Laws/Compression.lean ====
section
/-! SUPPORT. The compression function: roles, the circular buffer, the reference schedule, blocks of a byte sequence. -/

namespace Sys2Proof.Machine

/-- A rotation amount is below 32. -/
theorem rotAmount_lt (n : Int) : rotAmount n < 32 := by unfold rotAmount; omega

/-- Words are equal when their 32 bits are. -/
theorem word_ext {x y : Word} (h : ∀ i < 32, x.getLsbD i = y.getLsbD i) : x = y := by
  apply BitVec.eq_of_getLsbD_eq
  exact fun i hi => h i hi

/-- The role as a natural number. -/
theorem role_val (j t : Nat) : (role j t).val = (j + 4 * t) % 5 := by unfold role; simp only; omega

theorem schedule_length (blk) (n) : (Reference.schedule blk n).length = n := by
  induction n with
  | zero => rfl
  | succ n ih => simp [Reference.schedule, ih]

theorem schedule_getD (blk) (n t) (h : t < n) :
    (Reference.schedule blk n).getD t 0 = Reference.scheduleWord blk t := by
  induction n with
  | zero => omega
  | succ n ih =>
    by_cases hn : t = n
    · subst hn; rfl
    · rw [← ih (by omega)]
      simp only [Reference.schedule, List.getD_eq_getElem?_getD]
      rw [List.getElem?_append_left (by rw [schedule_length]; omega)]

/-- The recurrence of the message schedule. -/
theorem scheduleWord_eq (blk) (t) : Reference.scheduleWord blk t = if h : t < 16 then blockWord blk ⟨t, h⟩
    else rotl32 (Reference.scheduleWord blk (t - 3) ^^^ Reference.scheduleWord blk (t - 8) ^^^ Reference.scheduleWord blk (t - 14) ^^^ Reference.scheduleWord blk (t - 16)) 1 := by
  rw [Reference.scheduleWord, Reference.schedule]
  simp only [List.getD_eq_getElem?_getD]
  rw [List.getElem?_append_right (by rw [schedule_length])]
  simp only [schedule_length, Nat.sub_self, List.getElem?_cons_zero, Option.getD_some]
  split
  · rfl
  · simp only [← List.getD_eq_getElem?_getD]
    rw [schedule_getD _ _ _ (by omega), schedule_getD _ _ _ (by omega),
      schedule_getD _ _ _ (by omega), schedule_getD _ _ _ (by omega)]

theorem slot_set_same (ws : Vector Word 16) (t u : Nat) (w : Word) (h : u % 16 = t % 16) :
    slot (ws.set (t % 16) w (by omega)) u = w := by
  simp [slot, h]

theorem slot_set_ne (ws : Vector Word 16) (t u : Nat) (w : Word) (h : u % 16 ≠ t % 16) :
    slot (ws.set (t % 16) w (by omega)) u = slot ws u := by
  simp only [slot]
  exact Vector.getElem_set_ne _ _ (Ne.symm h)

theorem blockAt_append {bs : List Byte} {j} (cs) (h : 64 * (j + 1) ≤ bs.length) :
    Reference.blockAt (bs ++ cs) j = Reference.blockAt bs j := by
  unfold Reference.blockAt
  congr 1
  funext i
  simp only [List.getD_eq_getElem?_getD]
  rw [List.getElem?_append_left (by omega)]

theorem blockAt_drop (bs : List Byte) (j k) : Reference.blockAt (bs.drop (64 * k)) j = Reference.blockAt bs (k + j) := by
  unfold Reference.blockAt
  congr 1
  funext i
  simp only [List.getD_eq_getElem?_getD, List.getElem?_drop]
  congr 2
  ring

theorem chainFrom_append {h} {bs : List Byte} {k} (cs) (hk : 64 * k ≤ bs.length) :
    Reference.chainFrom h (bs ++ cs) k = Reference.chainFrom h bs k := by
  induction k with
  | zero => rfl
  | succ k ih => rw [Reference.chainFrom, Reference.chainFrom, ih (by omega), blockAt_append cs hk]

theorem block_of_firstBytes {m : Memory} {l : List Byte} (h : m.firstBytes 64 = l) :
    m.block = Reference.blockAt l 0 := by
  subst h
  ext i hi : 1
  simp [Reference.blockAt, List.getD_eq_getElem?_getD, Memory.firstBytes]

theorem compress_congr {s t : State} (hh : s.h = t.h) (blk : Vector Byte 64) :
    (compress blk s).h = (compress blk t).h ∧ (compress blk s).wr = (compress blk t).wr ∧
      (compress blk s).ws = (compress blk t).ws := by
  simp only [compress, hh, and_self]

end Sys2Proof.Machine
end

