-- ==== Sys2Proof/Laws/Decode.lean ====
section
/-! SUPPORT. Fields and bytes of words as numbers, for the decoder, the encoder and the operand forms. -/

namespace Sys2Proof

theorem field_lt (w : Word) (lo len : Nat) : field w lo len < 2 ^ len := Nat.mod_lt _ (by positivity)

theorem commandWord_toNat (op : BitVec 4) (cnt : BitVec 2) (b0 b1 b2 : Byte) :
    (commandWord op cnt b0 b1 b2).toNat =
      op.toNat * 2 ^ 28 + cnt.toNat * 2 ^ 24 + b0.toNat * 2 ^ 16 + b1.toNat * 2 ^ 8 + b2.toNat := by
  have h0 := b0.isLt
  have h1 := b1.isLt
  have h2 := b2.isLt
  have h3 := cnt.isLt
  simp only [commandWord, BitVec.toNat_append, BitVec.toNat_ofNat]
  rw [← Nat.shiftLeft_add_eq_or_of_lt (by omega), ← Nat.shiftLeft_add_eq_or_of_lt (by omega),
    ← Nat.shiftLeft_add_eq_or_of_lt (by omega), ← Nat.shiftLeft_add_eq_or_of_lt (by omega),
    ← Nat.shiftLeft_add_eq_or_of_lt (by omega)]
  simp only [Nat.shiftLeft_eq]
  omega

theorem byteAt_toNat (w : Word) (lo : Nat) : (byteAt w lo).toNat = w.toNat / 2 ^ lo % 2 ^ 8 := by
  simp [byteAt, BitVec.extractLsb'_toNat, Nat.shiftRight_eq_div_pow]

theorem byteAt_and (w m : Word) (k : Nat) : byteAt (w &&& m) k = byteAt w k &&& byteAt m k := by
  simp [byteAt, BitVec.extractLsb'_and]

/-- The bytes of a command word: OP, RSV and CNT, then the payload bytes. -/
theorem byteAt_commandWord (op : BitVec 4) (cnt : BitVec 2) (b0 b1 b2 : Byte) :
    (byteAt (commandWord op cnt b0 b1 b2) 24).toNat = op.toNat * 16 + cnt.toNat ∧
    byteAt (commandWord op cnt b0 b1 b2) 16 = b0 ∧ byteAt (commandWord op cnt b0 b1 b2) 8 = b1 ∧
    byteAt (commandWord op cnt b0 b1 b2) 0 = b2 := by
  have ho := op.isLt
  have h0 := b0.isLt
  have h1 := b1.isLt
  have h2 := b2.isLt
  have h3 := cnt.isLt
  refine ⟨?_, ?_, ?_, ?_⟩ <;> (try apply BitVec.eq_of_toNat_eq) <;> rw [byteAt_toNat, commandWord_toNat] <;> omega

theorem Machine.be32_toNat (b0 b1 b2 b3 : Byte) :
    (Machine.be32 b0 b1 b2 b3).toNat = b0.toNat * 2 ^ 24 + b1.toNat * 2 ^ 16 + b2.toNat * 2 ^ 8 + b3.toNat := by
  have h1 := b1.isLt
  have h2 := b2.isLt
  have h3 := b3.isLt
  simp only [Machine.be32, BitVec.toNat_append]
  rw [← Nat.shiftLeft_add_eq_or_of_lt (by omega), ← Nat.shiftLeft_add_eq_or_of_lt (by omega),
    ← Nat.shiftLeft_add_eq_or_of_lt (by omega)]
  simp only [Nat.shiftLeft_eq]
  omega

/-- A word is its four bytes. -/
theorem word_eq_be32 (w : Word) : w = Machine.be32 (byteAt w 24) (byteAt w 16) (byteAt w 8) (byteAt w 0) := by
  apply BitVec.eq_of_toNat_eq
  have := w.isLt
  simp only [Machine.be32_toNat, byteAt_toNat]
  omega

theorem word_ext_bytes {w v : Word} (h3 : byteAt w 24 = byteAt v 24) (h2 : byteAt w 16 = byteAt v 16)
    (h1 : byteAt w 8 = byteAt v 8) (h0 : byteAt w 0 = byteAt v 0) : w = v := by
  rw [word_eq_be32 w, word_eq_be32 v, h3, h2, h1, h0]

theorem Machine.be32_byte (b0 b1 b2 b3 : Byte) (j : Nat) (hj : j < 4) :
    (Machine.be32 b0 b1 b2 b3).extractLsb' (24 - 8 * j) 8 = [b0, b1, b2, b3][j] := by
  have h0 := b0.isLt
  have h1 := b1.isLt
  have h2 := b2.isLt
  have h3 := b3.isLt
  apply BitVec.eq_of_toNat_eq
  rw [BitVec.extractLsb'_toNat, Machine.be32_toNat, Nat.shiftRight_eq_div_pow]
  interval_cases j <;> simp <;> omega

/-- A word matches a row when its bytes do. -/
theorem OpcodeRow.isRowOf_iff (r : OpcodeRow) (w : Word) : r.isRowOf w = true ↔
    byteAt w 24 &&& byteAt r.mask 24 = byteAt r.value 24 ∧ byteAt w 16 &&& byteAt r.mask 16 = byteAt r.value 16 ∧
    byteAt w 8 &&& byteAt r.mask 8 = byteAt r.value 8 ∧ byteAt w 0 &&& byteAt r.mask 0 = byteAt r.value 0 := by
  rw [OpcodeRow.isRowOf, beq_iff_eq]
  simp only [← byteAt_and]
  exact ⟨fun h => by rw [h]; simp, fun ⟨h1, h2, h3, h4⟩ => word_ext_bytes h1 h2 h3 h4⟩

/-- A command word matches a row when its fields do. -/
theorem commandWord_isRowOf (op : BitVec 4) (cnt : BitVec 2) (b0 b1 b2 : Byte) (r : OpcodeRow)
    (h3 : (op ++ 0#2 ++ cnt) &&& byteAt r.mask 24 = byteAt r.value 24) (h2 : b0 &&& byteAt r.mask 16 = byteAt r.value 16)
    (h1 : b1 &&& byteAt r.mask 8 = byteAt r.value 8) (h0 : b2 &&& byteAt r.mask 0 = byteAt r.value 0) :
    r.isRowOf (commandWord op cnt b0 b1 b2) = true := by
  obtain ⟨g3, g2, g1, g0⟩ := byteAt_commandWord op cnt b0 b1 b2
  refine (OpcodeRow.isRowOf_iff _ _).2 ⟨?_, by rw [g2, h2], by rw [g1, h1], by rw [g0, h0]⟩
  rw [← h3]
  congr 1
  apply BitVec.eq_of_toNat_eq
  rw [g3]
  have := cnt.isLt
  simp only [BitVec.toNat_append]
  rw [← Nat.shiftLeft_add_eq_or_of_lt (by omega), ← Nat.shiftLeft_add_eq_or_of_lt (by decide)]
  simp only [Nat.shiftLeft_eq, BitVec.toNat_ofNat]
  omega

/-- A byte under a mask byte of zeros. -/
theorem byte_and_free (b : Byte) {m v : Byte} (hm : m = 0#8) (hv : v = 0#8) : b &&& m = v := by
  rw [hm, hv, BitVec.and_zero]

theorem decode_cases (w : Word) :
    (∃ i, decode w = .ok i) ∨ decode w = .error .reservedOpcode ∨ decode w = .error .reservedField := by
  cases h : decode w with
  | ok i => exact .inl ⟨i, rfl⟩
  | error e => cases e <;> simp

end Sys2Proof
end

