-- ==== Sys2Proof/Laws/State.lean ====
section
/-! SUPPORT. Each field of the state after each named update. -/

namespace Sys2Proof.Machine

variable (s : State)

@[simp] theorem State.startMessage_phase : s.startMessage.phase = .accepting := rfl
@[simp] theorem State.startMessage_h : s.startMessage.h = initialH := rfl
@[simp] theorem State.startMessage_bitcnt : s.startMessage.bitcnt = 0 := rfl
@[simp] theorem State.startMessage_bb : s.startMessage.bb = Memory.zeroed := rfl
@[simp] theorem State.startMessage_dg : s.startMessage.dg = s.dg := rfl
@[simp] theorem State.startMessage_wr : s.startMessage.wr = s.wr := rfl
@[simp] theorem State.startMessage_ws : s.startMessage.ws = s.ws := rfl
@[simp] theorem State.startMessage_cix : s.startMessage.cix = s.cix := rfl
@[simp] theorem State.startMessage_port : s.startMessage.port = s.port := rfl
@[simp] theorem State.startMessage_resp : s.startMessage.resp = s.resp := rfl

@[simp] theorem State.storeByte_phase (b : Byte) : (s.storeByte b).phase = s.phase := rfl
@[simp] theorem State.storeByte_h (b : Byte) : (s.storeByte b).h = s.h := rfl
@[simp] theorem State.storeByte_bitcnt (b : Byte) : (s.storeByte b).bitcnt = addBytes s.bitcnt 1 := rfl
@[simp] theorem State.storeByte_bb (b : Byte) : (s.storeByte b).bb = s.bb.write s.fill b := rfl
@[simp] theorem State.storeByte_dg (b : Byte) : (s.storeByte b).dg = s.dg := rfl
@[simp] theorem State.storeByte_wr (b : Byte) : (s.storeByte b).wr = s.wr := rfl
@[simp] theorem State.storeByte_ws (b : Byte) : (s.storeByte b).ws = s.ws := rfl
@[simp] theorem State.storeByte_cix (b : Byte) : (s.storeByte b).cix = s.cix := rfl
@[simp] theorem State.storeByte_port (b : Byte) : (s.storeByte b).port = s.port := rfl
@[simp] theorem State.storeByte_resp (b : Byte) : (s.storeByte b).resp = s.resp := rfl

@[simp] theorem compress_phase (blk : Vector Byte 64) : (compress blk s).phase = s.phase := rfl
@[simp] theorem compress_h (blk : Vector Byte 64) : (compress blk s).h = compressed s.h blk := rfl
@[simp] theorem compress_bitcnt (blk : Vector Byte 64) : (compress blk s).bitcnt = s.bitcnt := rfl
@[simp] theorem compress_bb (blk : Vector Byte 64) : (compress blk s).bb = s.bb := rfl
@[simp] theorem compress_dg (blk : Vector Byte 64) : (compress blk s).dg = s.dg := rfl
@[simp] theorem compress_wr (blk : Vector Byte 64) : (compress blk s).wr = (Datapath.final s.h blk).wr := rfl
@[simp] theorem compress_ws (blk : Vector Byte 64) : (compress blk s).ws = (Datapath.final s.h blk).ws := rfl
@[simp] theorem compress_cix (blk : Vector Byte 64) : (compress blk s).cix = s.cix := rfl
@[simp] theorem compress_port (blk : Vector Byte 64) : (compress blk s).port = s.port := rfl
@[simp] theorem compress_resp (blk : Vector Byte 64) : (compress blk s).resp = s.resp := rfl

@[simp] theorem State.storeDigest_phase : s.storeDigest.phase = .finalized := rfl
@[simp] theorem State.storeDigest_h : s.storeDigest.h = s.h := rfl
@[simp] theorem State.storeDigest_bitcnt : s.storeDigest.bitcnt = s.bitcnt := rfl
@[simp] theorem State.storeDigest_bb : s.storeDigest.bb = s.bb := rfl
@[simp] theorem State.storeDigest_dg : s.storeDigest.dg = digestBytes s.h := rfl
@[simp] theorem State.storeDigest_wr : s.storeDigest.wr = s.wr := rfl
@[simp] theorem State.storeDigest_ws : s.storeDigest.ws = s.ws := rfl
@[simp] theorem State.storeDigest_cix : s.storeDigest.cix = s.cix := rfl
@[simp] theorem State.storeDigest_port : s.storeDigest.port = s.port := rfl
@[simp] theorem State.storeDigest_resp : s.storeDigest.resp = s.resp := rfl

@[simp] theorem State.emit_phase (w : Word) : (s.emit w).phase = s.phase := rfl
@[simp] theorem State.emit_h (w : Word) : (s.emit w).h = s.h := rfl
@[simp] theorem State.emit_bitcnt (w : Word) : (s.emit w).bitcnt = s.bitcnt := rfl
@[simp] theorem State.emit_bb (w : Word) : (s.emit w).bb = s.bb := rfl
@[simp] theorem State.emit_dg (w : Word) : (s.emit w).dg = s.dg := rfl
@[simp] theorem State.emit_wr (w : Word) : (s.emit w).wr = s.wr := rfl
@[simp] theorem State.emit_ws (w : Word) : (s.emit w).ws = s.ws := rfl
@[simp] theorem State.emit_cix (w : Word) : (s.emit w).cix = s.cix := rfl
@[simp] theorem State.emit_port (w : Word) : (s.emit w).port = s.port := rfl
@[simp] theorem State.emit_resp (w : Word) : (s.emit w).resp = s.resp ++ [w] := rfl

@[simp] theorem State.hardwareReset_phase : s.hardwareReset.phase = .uninit := rfl
@[simp] theorem State.hardwareReset_h : s.hardwareReset.h = s.h := rfl
@[simp] theorem State.hardwareReset_bitcnt : s.hardwareReset.bitcnt = s.bitcnt := rfl
@[simp] theorem State.hardwareReset_bb : s.hardwareReset.bb = s.bb := rfl
@[simp] theorem State.hardwareReset_dg : s.hardwareReset.dg = s.dg := rfl
@[simp] theorem State.hardwareReset_wr : s.hardwareReset.wr = s.wr := rfl
@[simp] theorem State.hardwareReset_ws : s.hardwareReset.ws = s.ws := rfl
@[simp] theorem State.hardwareReset_cix : s.hardwareReset.cix = 0 := rfl
@[simp] theorem State.hardwareReset_port : s.hardwareReset.port = s.port := rfl
@[simp] theorem State.hardwareReset_resp : s.hardwareReset.resp = [] := rfl

@[simp] theorem State.dropInput_phase : s.dropInput.phase = s.phase := rfl
@[simp] theorem State.dropInput_h : s.dropInput.h = s.h := rfl
@[simp] theorem State.dropInput_bitcnt : s.dropInput.bitcnt = s.bitcnt := rfl
@[simp] theorem State.dropInput_bb : s.dropInput.bb = s.bb := rfl
@[simp] theorem State.dropInput_dg : s.dropInput.dg = s.dg := rfl
@[simp] theorem State.dropInput_wr : s.dropInput.wr = s.wr := rfl
@[simp] theorem State.dropInput_ws : s.dropInput.ws = s.ws := rfl
@[simp] theorem State.dropInput_cix : s.dropInput.cix = s.cix := rfl
@[simp] theorem State.dropInput_port : s.dropInput.port = s.port.tail := rfl
@[simp] theorem State.dropInput_resp : s.dropInput.resp = s.resp := rfl

@[simp] theorem State.countCommand_phase : s.countCommand.phase = s.phase := rfl
@[simp] theorem State.countCommand_h : s.countCommand.h = s.h := rfl
@[simp] theorem State.countCommand_bitcnt : s.countCommand.bitcnt = s.bitcnt := rfl
@[simp] theorem State.countCommand_bb : s.countCommand.bb = s.bb := rfl
@[simp] theorem State.countCommand_dg : s.countCommand.dg = s.dg := rfl
@[simp] theorem State.countCommand_wr : s.countCommand.wr = s.wr := rfl
@[simp] theorem State.countCommand_ws : s.countCommand.ws = s.ws := rfl
@[simp] theorem State.countCommand_cix : s.countCommand.cix = s.cix + 1 := rfl
@[simp] theorem State.countCommand_port : s.countCommand.port = s.port := rfl
@[simp] theorem State.countCommand_resp : s.countCommand.resp = s.resp := rfl

end Sys2Proof.Machine
end

