-- ==== Sys2Proof/Laws/Ops.lean ====
section
/-! SUPPORT. What each shared operation does, said once: absorbing bytes, the counter, the digest's words. -/

namespace Sys2Proof.Machine

theorem fill_lt (s : State) : s.fill < 64 := by unfold State.fill; omega

@[simp] theorem compress_fill (s : State) (b) : (compress b s).fill = s.fill := rfl

theorem addBytes_toNat {c : Count} {n : Nat} (h : c.toNat + 8 * n < 2 ^ 64) : (addBytes c n).toNat = c.toNat + 8 * n := by
  simp only [addBytes, BitVec.toNat_add, BitVec.toNat_ofNat]
  omega

section

variable (s : State) (b : Byte)

@[simp] theorem absorbByte_bitcnt : (absorbByte s b).bitcnt = addBytes s.bitcnt 1 := by unfold absorbByte; split <;> rfl
@[simp] theorem absorbByte_bb : (absorbByte s b).bb = s.bb.write s.fill b := by unfold absorbByte; split <;> rfl
@[simp] theorem absorbByte_phase : (absorbByte s b).phase = s.phase := by unfold absorbByte; split <;> rfl
@[simp] theorem absorbByte_dg : (absorbByte s b).dg = s.dg := by unfold absorbByte; split <;> rfl
@[simp] theorem absorbByte_cix : (absorbByte s b).cix = s.cix := by unfold absorbByte; split <;> rfl
@[simp] theorem absorbByte_port : (absorbByte s b).port = s.port := by unfold absorbByte; split <;> rfl
@[simp] theorem absorbByte_resp : (absorbByte s b).resp = s.resp := by unfold absorbByte; split <;> rfl

end

/-- What absorbing bytes never writes. -/
theorem foldl_absorbByte_frame (p : List Byte) (s : State) :
    (p.foldl absorbByte s).phase = s.phase ∧ (p.foldl absorbByte s).dg = s.dg ∧ (p.foldl absorbByte s).cix = s.cix ∧
    (p.foldl absorbByte s).port = s.port ∧ (p.foldl absorbByte s).resp = s.resp := by
  induction p generalizing s with
  | nil => simp
  | cons b p ih => simpa using ih (absorbByte s b)

theorem foldl_absorbByte_count (p : List Byte) (s : State) (h : s.bitcnt.toNat + 8 * p.length < 2 ^ 64) :
    (p.foldl absorbByte s).bitcnt.toNat = s.bitcnt.toNat + 8 * p.length := by
  induction p generalizing s with
  | nil => simp
  | cons b p ih =>
    simp only [List.length_cons] at h ⊢
    have h1 : (absorbByte s b).bitcnt.toNat = s.bitcnt.toNat + 8 := by rw [absorbByte_bitcnt, addBytes_toNat (by omega)]
    rw [List.foldl_cons, ih _ (by rw [h1]; omega), h1]
    omega

theorem foldl_absorbByte_fill (p : List Byte) (s : State) (h : s.bitcnt.toNat + 8 * p.length < 2 ^ 64) :
    (p.foldl absorbByte s).fill = (s.fill + p.length) % 64 := by
  unfold State.fill
  rw [foldl_absorbByte_count p s h]
  omega

/-- Absorbing keeps the canonical form of the block buffer. -/
theorem foldl_absorbByte_wf (p : List Byte) (s : State) (h : s.bb.wf = true) : (p.foldl absorbByte s).bb.wf = true := by
  induction p generalizing s with
  | nil => exact h
  | cons b p ih => exact ih _ (by rw [absorbByte_bb]; exact Memory.wf_write _ (fill_lt s) h)

/-- Which addresses absorbing writes, and what they then hold. -/
theorem foldl_absorbByte_reads (p : List Byte) (s : State) (h : s.bitcnt.toNat + 8 * p.length < 2 ^ 64) :
    (∀ j (hj : j < p.length), p.length ≤ j + 64 → (p.foldl absorbByte s).bb.read ((s.fill + j) % 64) = p[j]) ∧
    (∀ a, (∀ j < p.length, a ≠ (s.fill + j) % 64) → (p.foldl absorbByte s).bb.read a = s.bb.read a) := by
  induction p using List.reverseRecOn with
  | nil => simp
  | append_singleton p b ih =>
    simp only [List.length_append, List.length_singleton] at h
    obtain ⟨h1, h2⟩ := ih (by omega)
    have hf := foldl_absorbByte_fill p s (by omega)
    simp only [List.foldl_append, List.foldl_cons, List.foldl_nil, absorbByte_bb, hf, List.length_append,
      List.length_singleton]
    refine ⟨fun j hj hl => ?_, fun a ha => ?_⟩
    · by_cases hjn : j = p.length
      · subst hjn; simp
      · rw [Memory.read_write_other _ _ (by omega), h1 j (by omega) (by omega), List.getElem_append_left]
    · rw [Memory.read_write_other _ _ (ha _ (by omega)), h2 a fun j hj => ha j (by omega)]

theorem absorb_some {p : List Byte} {s : State} (h : s.bitcnt.toNat + 8 * p.length < 2 ^ 64) :
    absorb p s = some (p.foldl absorbByte s) := by
  simp only [absorb, countFits, Config.countBound, h]
  rfl

theorem absorb_none {p : List Byte} {s : State} (h : ¬ s.bitcnt.toNat + 8 * p.length < 2 ^ 64) : absorb p s = none := by
  simp only [absorb, countFits, Config.countBound, h]
  rfl

/-- What an absorb that does not overflow is. -/
theorem absorb_eq_some {p : List Byte} {s t : State} (h : absorb p s = some t) :
    s.bitcnt.toNat + 8 * p.length < 2 ^ 64 ∧ t = p.foldl absorbByte s := by
  by_cases hc : s.bitcnt.toNat + 8 * p.length < 2 ^ 64
  · rw [absorb_some hc] at h
    cases h
    exact ⟨hc, rfl⟩
  · rw [absorb_none hc] at h
    cases h

theorem length_be64Bytes (c : Count) : (be64Bytes c).length = 8 := by simp [be64Bytes]

/-- Byte `4k + j` of the digest is byte `j` of H[k]. -/
theorem getElem_digestBytes (h : Vector Word 5) (k j : Nat) (hk : k < 5) (hj : j < 4) :
    (digestBytes h)[4 * k + j] = wordByte h[k] j := by
  have e1 : (4 * k + j) / 4 = k := by omega
  have e2 : (4 * k + j) % 4 = j := by omega
  simp only [digestBytes, Vector.getElem_ofFn, e1, e2]

end Sys2Proof.Machine
end

