-- ==== Sys2Proof/Laws/PerInstr.lean ====
section
/-! SUPPORT. Statements made per command: the encoding of a command lies in its row of the opcode table
(30_encoding.md R81). -/

namespace Sys2Proof.Laws.EncodingFitsRow

/-- The encoded command matches its own row, value and mask. -/
def Statement (i : Instr) : Prop := i.row.isRowOf (encode i) = true

theorem init : Statement .init :=
  commandWord_isRowOf _ _ _ _ _ Instr.init.row (by decide) (by decide) (by decide) (by decide)

theorem append0 : Statement .append0 :=
  commandWord_isRowOf _ _ _ _ _ Instr.append0.row (by decide) (by decide) (by decide) (by decide)

theorem append1 (b0 : Byte) : Statement (.append1 b0) :=
  commandWord_isRowOf _ _ _ _ _ (Instr.append1 0).row (by decide) (byte_and_free b0 (by decide) (by decide)) (by decide)
    (by decide)

theorem append2 (b0 b1 : Byte) : Statement (.append2 b0 b1) :=
  commandWord_isRowOf _ _ _ _ _ (Instr.append2 0 0).row (by decide) (byte_and_free b0 (by decide) (by decide))
    (byte_and_free b1 (by decide) (by decide)) (by decide)

theorem append3 (b0 b1 b2 : Byte) : Statement (.append3 b0 b1 b2) :=
  commandWord_isRowOf _ _ _ _ _ (Instr.append3 0 0 0).row (by decide) (byte_and_free b0 (by decide) (by decide))
    (byte_and_free b1 (by decide) (by decide)) (byte_and_free b2 (by decide) (by decide))

theorem finalize : Statement .finalize :=
  commandWord_isRowOf _ _ _ _ _ Instr.finalize.row (by decide) (by decide) (by decide) (by decide)

theorem read (reg : Nat) : Statement (.read reg) := by
  have h : ∀ r < 16, BitVec.ofNat 8 r &&& byteAt (Instr.read 0).row.mask 0 = byteAt (Instr.read 0).row.value 0 := by decide
  exact commandWord_isRowOf _ _ _ _ _ (Instr.read 0).row (by decide) (by decide) (by decide)
    (h _ (Nat.mod_lt _ (by decide)))

end Sys2Proof.Laws.EncodingFitsRow
end

