-- ==== Sys2Proof/Laws/Step.lean ====
section
/-! SUPPORT. What a next state of a command and of a step can be, said once. -/

namespace Sys2Proof.Machine

theorem exec_append {i : Instr} (hi : isAppend i = true) (s : State) : exec i s = appendPayload i s := by
  cases i <;> first | rfl | cases hi

theorem appendPayload_next {i : Instr} {s t : State} (h : appendPayload i s = .next t) :
    s.phase = .accepting ∧ absorb (payload i) s = some t := by
  unfold appendPayload at h
  split at h
  · cases h
  · cases h
  · split at h
    · cases h
      exact ⟨‹_›, ‹_›⟩
    · cases h

theorem execFinalize_next {s t : State} (h : execFinalize s = .next t) :
    s.phase = .accepting ∧ ∃ u, padMessage s = some u ∧ t = u.storeDigest := by
  unfold execFinalize at h
  split at h
  · cases h
  · cases h
  · split at h
    · cases h
      exact ⟨‹_›, _, ‹_›, rfl⟩
    · cases h

theorem execRead_next {reg : Nat} {s t : State} (h : execRead reg s = .next t) : ∃ w, t = s.emit w := by
  unfold execRead at h
  repeat' split at h
  all_goals cases h
  all_goals exact ⟨_, rfl⟩

/-- The state with another port; `{ s with port := p }` is this by `rfl`. -/
def State.withPort (p : List HostInput) (s : State) : State := { s with port := p }

@[simp] theorem State.withPort_phase (p : List HostInput) (s : State) : (s.withPort p).phase = s.phase := rfl
@[simp] theorem State.withPort_bitcnt (p : List HostInput) (s : State) : (s.withPort p).bitcnt = s.bitcnt := rfl
@[simp] theorem State.withPort_fill (p : List HostInput) (s : State) : (s.withPort p).fill = s.fill := rfl
@[simp] theorem State.withPort_dg (p : List HostInput) (s : State) : (s.withPort p).dg = s.dg := rfl
@[simp] theorem State.withPort_port (p : List HostInput) (s : State) : (s.withPort p).port = p := rfl

/-- An outcome with another port in its next state. -/
def outcomeWithPort (p : List HostInput) : Host.Outcome State Fault Refusal → Host.Outcome State Fault Refusal
  | .next t => .next (t.withPort p)
  | .fault f => .fault f
  | .refused r => .refused r

theorem foldl_absorbByte_withPort (bs : List Byte) (s : State) (p : List HostInput) :
    bs.foldl absorbByte (s.withPort p) = (bs.foldl absorbByte s).withPort p := by
  induction bs generalizing s with
  | nil => rfl
  | cons b bs ih =>
    have h : absorbByte (s.withPort p) b = (absorbByte s b).withPort p := by
      by_cases h63 : s.fill = 63
      · rw [absorbByte, absorbByte, if_pos h63, if_pos (by rw [State.withPort_fill, h63])]
        rfl
      · rw [absorbByte, absorbByte, if_neg h63, if_neg (by rw [State.withPort_fill]; exact h63)]
        rfl
    rw [List.foldl_cons, h, ih, List.foldl_cons]

theorem absorb_withPort (bs : List Byte) (s : State) (p : List HostInput) :
    absorb bs (s.withPort p) = (absorb bs s).map (State.withPort p) := by
  simp only [absorb, foldl_absorbByte_withPort, State.withPort_bitcnt]
  split <;> rfl

theorem padZeros_withPort (n : Nat) (s : State) (p : List HostInput) :
    padZeros n (s.withPort p) = (padZeros n s).map (State.withPort p) := by
  induction n generalizing s with
  | zero => rfl
  | succ n ih =>
    simp only [padZeros, absorb_withPort, State.withPort_bitcnt]
    split
    · rfl
    · cases absorb [0x00] s with
      | none => rfl
      | some t => exact ih t

theorem padMessage_withPort (s : State) (p : List HostInput) :
    padMessage (s.withPort p) = (padMessage s).map (State.withPort p) := by
  simp only [padMessage, absorb_withPort, State.withPort_bitcnt]
  cases absorb [0x80] s with
  | none => rfl
  | some s1 =>
    simp only [Option.map_some, padZeros_withPort]
    cases padZeros 64 s1 with
    | none => rfl
    | some s2 => simp only [Option.map_some, absorb_withPort]

/-- A command neither reads nor writes the port. -/
theorem exec_withPort (i : Instr) (s : State) (p : List HostInput) :
    exec i (s.withPort p) = outcomeWithPort p (exec i s) := by
  by_cases ha : isAppend i = true
  · rw [exec_append ha, exec_append ha]
    simp only [appendPayload, absorb_withPort, State.withPort_phase]
    cases s.phase <;> try rfl
    cases absorb (payload i) s <;> rfl
  · cases i with
    | init => rfl
    | append0 => exact absurd rfl ha
    | append1 b0 => exact absurd rfl ha
    | append2 b0 b1 => exact absurd rfl ha
    | append3 b0 b1 b2 => exact absurd rfl ha
    | finalize =>
      simp only [exec, execFinalize, padMessage_withPort, State.withPort_phase]
      cases s.phase <;> try rfl
      cases padMessage s <;> rfl
    | read reg =>
      simp only [exec, execRead, State.withPort_phase]
      repeat' split
      all_goals first | rfl | simp_all [outcomeWithPort, raise, State.emit, State.withPort]

/-- The next states of a command. -/
theorem exec_next {i : Instr} {s t : State} (h : exec i s = .next t) :
    (i = .init ∧ t = s.startMessage) ∨
    (isAppend i = true ∧ s.phase = .accepting ∧ absorb (payload i) s = some t) ∨
    (i = .finalize ∧ s.phase = .accepting ∧ ∃ u, padMessage s = some u ∧ t = u.storeDigest) ∨
    (∃ reg w, i = .read reg ∧ t = s.emit w) := by
  by_cases ha : isAppend i = true
  · rw [exec_append ha] at h
    exact .inr (.inl ⟨ha, appendPayload_next h⟩)
  · cases i with
    | init => cases h; exact .inl ⟨rfl, rfl⟩
    | append0 => exact absurd rfl ha
    | append1 b0 => exact absurd rfl ha
    | append2 b0 b1 => exact absurd rfl ha
    | append3 b0 b1 b2 => exact absurd rfl ha
    | finalize => exact .inr (.inr (.inl ⟨rfl, execFinalize_next h⟩))
    | read reg =>
      obtain ⟨w, hw⟩ := execRead_next h
      exact .inr (.inr (.inr ⟨reg, w, rfl, hw⟩))

/-- The next states of a step. -/
theorem step_next {s t : State} (h : step s = .next t) :
    (s.port = [] ∧ t = s) ∨
    (∃ rest, s.port = .reset :: rest ∧ t = s.dropInput.hardwareReset) ∨
    (∃ w rest i u, s.port = .command w :: rest ∧ decode w = .ok i ∧ exec i s.dropInput = .next u ∧ t = u.countCommand) := by
  unfold step at h
  split at h
  · cases h
    exact .inl ⟨‹_›, rfl⟩
  · cases h
    exact .inr (.inl ⟨_, ‹_›, rfl⟩)
  · rename_i w rest hp
    unfold runCommand at h
    split at h
    · cases h
    · rename_i i hd
      cases hx : exec i s.dropInput with
      | next u =>
        rw [hx] at h
        cases h
        exact .inr (.inr ⟨w, rest, i, u, hp, hd, hx, rfl⟩)
      | fault f => rw [hx] at h; cases h
      | refused r => rw [hx] at h; cases h

/-- Zero padding keeps what absorbing keeps, and ends where the length field fits. -/
theorem padZeros_some {n : Nat} {s t : State} (h : padZeros n s = some t) :
    t.bitcnt.toNat % 512 = 448 ∧ ∃ z, t = (List.replicate z 0x00).foldl absorbByte s := by
  induction n generalizing s with
  | zero => cases h
  | succ n ih =>
    unfold padZeros at h
    split at h
    · cases h
      exact ⟨‹_›, 0, rfl⟩
    · split at h
      · rename_i u hu
        obtain ⟨-, rfl⟩ := absorb_eq_some hu
        obtain ⟨h1, z, hz⟩ := ih h
        exact ⟨h1, z + 1, hz⟩
      · cases h

/-- What padding that does not overflow is: the bytes 0x80, zeros and the length field, absorbed. -/
theorem padMessage_some {s t : State} (h : padMessage s = some t) :
    ∃ z, t = ([0x80] ++ List.replicate z 0x00 ++ be64Bytes s.bitcnt).foldl absorbByte s := by
  unfold padMessage at h
  split at h
  · cases h
  · rename_i s1 h1
    obtain ⟨-, rfl⟩ := absorb_eq_some h1
    split at h
    · cases h
    · rename_i s2 h2
      obtain ⟨-, z, rfl⟩ := padZeros_some h2
      obtain ⟨-, rfl⟩ := absorb_eq_some h
      exact ⟨z, by rw [List.foldl_append, List.foldl_append]⟩

end Sys2Proof.Machine
end

