-- ==== Sys2Proof/Tests/Slice0.lean ====
section
/-! SUPPORT. Small tests against the vectors of 95_test_vectors.md and the examples of the rules, and for each statement
with hypotheses a witness: a concrete state and operands that meet them all. -/

namespace Sys2Proof.Tests

open Sys2Proof.Machine

/- One theorem after the other: many kernel evaluations at once would need much memory. -/
set_option Elab.async false

/-- What a test looks at in a next state. -/
def after {α : Type} (f : State → α) : Host.Outcome State Fault Refusal → Option α
  | .next s => some (f s)
  | .fault _ => none
  | .refused _ => none

theorem after_some {α : Type} {f : State → α} {o : Host.Outcome State Fault Refusal} {a : α} (h : after f o = some a) :
    ∃ t, o = .next t ∧ f t = a := by
  cases o with
  | next s => exact ⟨s, rfl, Option.some.inj h⟩
  | fault f => cases h
  | refused r => cases h

/-- An outcome that goes on has a next state. -/
theorem goes_on {o : Host.Outcome State Fault Refusal} (h : after (fun _ => ()) o = some ()) : ∃ t, o = .next t :=
  (after_some h).imp fun _ h => h.1

/-- The fault an outcome is. -/
def stop : Host.Outcome State Fault Refusal → Option Fault
  | .next _ => none
  | .fault f => some f
  | .refused _ => none

/-- ACCEPTING with H the constants. -/
def accepting (c : Count) (m : Memory) : State := { State.reset with phase := .accepting, h := initialH, bitcnt := c, bb := m }

/-- FINALIZED with the digest of H the constants stored. -/
def finalized : State := { State.reset with phase := .finalized, h := initialH, bitcnt := 512, dg := digestBytes initialH }

/-- After INIT and APPEND 'a','b','c'. -/
def abc : State := accepting 24 [(0, 0x61), (1, 0x62), (2, 0x63)]

/-- After INIT and `n` bytes "a", for `n` below 64. -/
def manyA (n : Nat) : State := accepting (BitVec.ofNat 64 (8 * n)) ((List.range n).map fun i => (i, 0x61))

/-- With one word pending at the port. -/
def given (w : Word) (s : State) : State := { s with port := [.command w] }

/-! ### Well-formedness -/

theorem test_wf_read_15 : (Instr.read 15).wf = true := by decide

/-- An index that has no encoding (30_encoding.md R75). -/
theorem test_illformed_read_16 : (Instr.read 16).wf = false := by decide

/-! ### Decoding, each word written out from 30_encoding.md R70 to R75 -/

theorem test_decode_init : decode 0b0001_00_00_00000000_00000000_00000000 = .ok .init := by decide
theorem test_decode_append0 : decode 0b0010_00_00_00000000_00000000_00000000 = .ok .append0 := by decide
theorem test_decode_append1 : decode 0b0010_00_01_10000001_00000000_00000000 = .ok (.append1 0x81) := by decide
theorem test_decode_append2 : decode 0b0010_00_10_10000001_01000010_00000000 = .ok (.append2 0x81 0x42) := by decide
theorem test_decode_append3 : decode 0b0010_00_11_10000001_01000010_00100100 = .ok (.append3 0x81 0x42 0x24) := by decide
theorem test_decode_finalize : decode 0b0011_00_00_00000000_00000000_00000000 = .ok .finalize := by decide
theorem test_decode_read : decode 0b0100_00_00_00000000_00000000_0000_0110 = .ok (.read 6) := by decide

/-- The reserved words of 95_test_vectors.md section 2.8. -/
theorem test_decode_reserved :
    ([0x10000001, 0x18000000, 0x20000001, 0x24000000, 0x28000000, 0x21FF0001, 0x22FFFF01, 0x2F000000, 0x30000100, 0x40000010,
      0x48000000].all fun w => decide (decode w = .error .reservedField)) = true ∧
    ([0x00000000, 0x0FFFFFFF, 0x50000000, 0x80000000, 0xFFFFFFFF].all fun w => decide (decode w = .error .reservedOpcode)) =
      true := by decide +kernel

theorem test_table_word : decodeTableWord 32 0x23616263 = some (.append3 0x61 0x62 0x63) ∧ decodeTableWord 40 0x23616263 = none :=
  by decide

/-! ### Commands (95_test_vectors.md sections 2.5 to 2.7) -/

theorem test_init_discards_message :
    after (fun t => (t.phase, t.bitcnt, t.bb, statusWord t)) (exec .init abc) = some (.accepting, 0, [], 0x00000001) := by decide

theorem test_append0_changes_nothing : after id (exec .append0 abc) = some abc := by decide +kernel

/-- Carry into BITCNT_HI, the byte at address 63 completing a block. -/
theorem test_append1_carry :
    after (fun t => (t.bitcnt, countLo t.bitcnt, countHi t.bitcnt, statusWord t)) (exec (.append1 0x00) (accepting 0xFFFFFFF8 [])) =
      some (0x100000000, 0, 1, 0x00000001) := by decide +kernel

/-- The largest reachable counter is reached, not passed. -/
theorem test_append1_overflow :
    after State.bitcnt (exec (.append1 0x00) (accepting 0xFFFFFFFFFFFFFFF0 [])) = some 0xFFFFFFFFFFFFFFF8 ∧
    stop (exec (.append1 0x00) (accepting 0xFFFFFFFFFFFFFFF8 [])) = some (.counterOverflow 0 0x21000000) := by decide +kernel

/-- APPEND 2 from FILL 63: 'b' completes the block, 'c' lands in BB[0]. -/
theorem test_append2_from_fill_63 :
    after (fun t => (t.h, t.bitcnt, t.fill, t.bb.read 0, t.bb.read 63)) (exec (.append2 0x62 0x63) (manyA 63)) =
      some (#v[0x04360F0C, 0xE1C9891C, 0xB8560669, 0x9AB244BE, 0x29049AA7], 0x208, 1, 0x63, 0x62) := by decide +kernel

theorem test_append3_abc : after (fun t => (t.bb, t.bitcnt, statusWord t)) (exec (.append3 0x61 0x62 0x63) (accepting 0 [])) =
    some ([(0, 0x61), (1, 0x62), (2, 0x63)], 0x18, 0x00000301) := by decide +kernel

/-- "abc": source vector S2, and the buffer left as the padded block. -/
theorem test_finalize_abc :
    after (fun t => (t.h, t.dg.toList, t.bitcnt, statusWord t)) (exec .finalize abc) =
      some (#v[0xA9993E36, 0x4706816A, 0xBA3E2571, 0x7850C26C, 0x9CD0D89D],
        [0xA9, 0x99, 0x3E, 0x36, 0x47, 0x06, 0x81, 0x6A, 0xBA, 0x3E, 0x25, 0x71, 0x78, 0x50, 0xC2, 0x6C, 0x9C, 0xD0, 0xD8, 0x9D],
        0x200, 0x00000002) ∧
    after State.bb (exec .finalize abc) = some [(0, 0x61), (1, 0x62), (2, 0x63), (3, 0x80), (63, 0x18)] := by decide +kernel

/-- The two counters of 95_test_vectors.md section 2.6. -/
theorem test_finalize_overflow :
    after State.bitcnt (exec .finalize (accepting 0xFFFFFFFFFFFFFDB8 [])) = some 0xFFFFFFFFFFFFFE00 ∧
    stop (exec .finalize (accepting 0xFFFFFFFFFFFFFDC0 [])) = some (.counterOverflow 0 0x30000000) := by decide +kernel

theorem test_read_finalized :
    after State.resp (exec (.read 5) finalized) = some [0xC3D2E1F0] ∧ after State.resp (exec (.read 0) finalized) = some [2] ∧
    after State.resp (exec (.read 6) finalized) = some [0x200] := by decide +kernel

theorem test_read_uninit :
    after State.resp (exec (.read 0) State.reset) = some [0] ∧
    stop (exec (.read 1) State.reset) = some (.digestNotValid 0 0x40000001) ∧
    stop (exec (.read 7) State.reset) = some (.counterNotValid 0 0x40000007) ∧
    stop (exec (.read 9) State.reset) = some (.reservedRegister 0 0x40000009) := by decide +kernel

/-- Priority of faults (95_test_vectors.md section 2.9). -/
theorem test_fault_priority :
    stop (step (given 0x21006100 State.reset)) = some (.reservedField 0 0x21006100) ∧
    stop (step (given 0x40000010 State.reset)) = some (.reservedField 0 0x40000010) ∧
    stop (step (given 0x21610001 finalized)) = some (.reservedField 0 0x21610001) ∧
    stop (step (given 0x30000000 finalized)) = some (.alreadyFinalized 0 0x30000000) ∧
    stop (step (given 0x50000000 abc)) = some (.reservedOpcode 0 0x50000000) := by decide +kernel

theorem test_fetch_word : after (fun t => (t.phase, t.cix)) (step (State.reset.withFetchWord 32 0x10000000)) = some (.accepting, 1) := by
  decide +kernel

/-- Program P6: the INIT after the fault never runs. -/
theorem test_observation_of_fault :
    observation { State.reset with port := [.command 0x40000000, .command 0x21610000, .command 0x10000000] } =
      .faulted (.notInitialized 1 0x21610000) [0] := by decide +kernel

/-! ### Rotator and compression (95_test_vectors.md sections 2.1 to 2.3) -/

theorem test_rotate : rotl32 0x12345678 33 = 0x2468ACF0 ∧ rotl32 0x12345678 (-1) = 0x091A2B3C ∧ rotr32 0x12345678 5 = 0xC091A2B3 ∧
    rotl32 0x80000001 0 = 0x80000001 := by decide +kernel

theorem test_stages : stageFn 0 0xEFCDAB89 0x98BADCFE 0x10325476 = 0x98BADCFE ∧
    stageFn 20 0xEFCDAB89 0x98BADCFE 0x10325476 = 0x67452301 ∧ stageFn 40 0xF0F0F0F0 0xFF00FF00 0x0F0F0F0F = 0xFF00FF00 ∧
    stageConst 59 = 0x8F1BBCDC ∧ stageConst 60 = 0xCA62C1D6 := by decide +kernel

/-- The working registers after rounds 0 and 1 of the padded block of "abc", in the rotating-role view. -/
theorem test_rounds :
    oneRound 0 0x61626380 initialH = #v[0x67452301, 0x7BF36AE2, 0x98BADCFE, 0x10325476, 0x0116FC33] ∧
    oneRound 1 0 #v[0x67452301, 0x7BF36AE2, 0x98BADCFE, 0x10325476, 0x0116FC33] =
      #v[0x59D148C0, 0x7BF36AE2, 0x98BADCFE, 0x8990536D, 0x0116FC33] := by decide +kernel

/-- All-zero H and block are ordinary inputs. -/
theorem test_compress_zero : compressed (Vector.replicate 5 0) (Vector.replicate 64 0) =
    #v[0x9E1547ED, 0x57EC91C2, 0x30FA8BC8, 0xC7785A54, 0xA7EFA5E3] := by decide +kernel

/-! ### Assembler (30_encoding.md R83 to R85, R90 to R92) -/

theorem test_assemble_append : Assembler.assembleLine "append 'a', 0x62 ; comment".toList = .ok [0x22616200] ∧
    Assembler.assembleLine "APPEND 256".toList = .error .outOfRange ∧
    Assembler.assembleLine "APPEND 1, 2, 3, 4".toList = .error .badOperands := by decide +kernel

theorem test_assemble_hash :
    Assembler.assembleLine "HASH \"abcd\"".toList = .ok [0x10000000, 0x23616263, 0x21640000, 0x30000000] ∧
    Assembler.assembleLine "APPENDS [0xFF, 0]".toList = .ok [0x22FF0000] := by decide +kernel

/-- The model's choice of log entry 9: no blank is needed before a quote or a bracket. -/
theorem test_assemble_without_blank : Assembler.assembleLine "APPEND'a'".toList = .ok [0x21610000] ∧
    Assembler.assembleLine "APPENDS[1]".toList = .ok [0x21010000] := by decide +kernel

theorem test_assemble_text : Assembler.assemble "INIT\n\nread bitcnt_hi\nREADDIGEST".toList =
    .ok [0x10000000, 0x40000007, 0x40000001, 0x40000002, 0x40000003, 0x40000004, 0x40000005] := by decide +kernel

/-! ### Witnesses for the hypotheses of the statements -/

theorem witness_DecodeOfEncode : (Instr.read 15).wf = true ∧ (Instr.append3 0xFF 0 1).wf = true := by decide

theorem witness_EncodeOfDecode : decode 0x4000000F = .ok (.read 15) := by decide

theorem witness_OpcodeTable :
    (Instr.read 0).row ∈ opcodeTable ∧ (Instr.read 0).row.isRowOf 0x4000000F = true ∧
    (∀ r ∈ opcodeTable, r.isRowOf 0x50000000 = false) ∧ (∀ r ∈ opcodeTable, r.isRowOf 0x21FF0001 = false) := by decide

theorem witness_StepRunsTheDecodedCommand :
    (given 0x20000000 abc).port = .command 0x20000000 :: [] ∧ decode 0x20000000 = .ok .append0 ∧
    after State.bitcnt (exec .append0 { given 0x20000000 abc with port := [] }) = some 24 ∧
    stop (exec .append0 { given 0x20000000 finalized with port := [] }) = some (.alreadyFinalized 0 0x20000000) := by
  decide +kernel

theorem witness_ReservedOpcode :
    (given 0x0FFFFFFF abc).port = .command 0x0FFFFFFF :: [] ∧ field 0x0FFFFFFF 28 4 = 0 ∧
    5 ≤ field 0x50000000 28 4 ∧ 5 ≤ field 0xFFFFFFFF 28 4 := by decide

theorem witness_ReservedField :
    (given 0x10000001 abc).port = .command 0x10000001 :: [] ∧
    (field 0x10000001 28 4 = 1 ∧ field 0x10000001 0 28 ≠ 0) ∧ (field 0x38000000 28 4 = 3 ∧ field 0x38000000 0 28 ≠ 0) ∧
    (field 0x40000010 28 4 = 4 ∧ field 0x40000010 4 24 ≠ 0) ∧ (field 0x24000000 28 4 = 2 ∧ field 0x24000000 26 2 ≠ 0) ∧
    (field 0x20800000 24 2 = 0 ∧ field 0x20800000 0 24 ≠ 0) ∧ (field 0x21FF0001 24 2 = 1 ∧ field 0x21FF0001 0 16 ≠ 0) ∧
    (field 0x22FFFF80 24 2 = 2 ∧ field 0x22FFFF80 0 8 ≠ 0) := by decide

theorem witness_HardwareReset : { abc with port := [.reset, .command 0] }.port = .reset :: [.command 0] := rfl

theorem witness_EngineWithoutInput : abc.port = [] := rfl

theorem witness_FaultRecords : step (given 0x20000000 State.reset) = .fault (.notInitialized 0 0x20000000) := rfl

theorem witness_FaultIsTerminal :
    (given 0x21610000 State.reset).port = .command 0x21610000 :: [] ∧
    step (given 0x21610000 State.reset) = .fault (.notInitialized 0 0x21610000) ∧
    ∃ t, core.run 1 { State.reset with port := [.command 0x40000000, .command 0x50000000] } = .next t ∧
      step t = .fault (.reservedOpcode 1 0x50000000) := ⟨rfl, by rfl, _, rfl, by rfl⟩

theorem witness_CommandFaults :
    Instr.finalize.wf = true ∧ (abc.phase ≠ .uninit → abc.bitcnt.toNat % 8 = 0) ∧
    (violation .finalize abc).isNone = true ∧ (violation .finalize (accepting 0xFFFFFFFFFFFFFDC0 [])).isSome = true ∧
    (violation .finalize (accepting 0xFFFFFFFFFFFFFDB8 [])).isNone = true ∧ (violation (.read 8) abc).isSome = true ∧
    (violation (.read 7) abc).isNone = true := by decide +kernel

theorem witness_InitStarts : (0 : Nat) < 5 ∧ (4 : Nat) < 5 ∧ field 0x10000001 28 4 = 1 ∧ field 0x10000001 0 28 ≠ 0 ∧
    field 0x18000000 0 28 ≠ 0 := by decide

theorem witness_InitIsIdempotent : exec .init finalized = .next finalized.startMessage := rfl

theorem witness_Append0 : abc.phase = .accepting ∧ State.reset.phase = .uninit ∧ finalized.phase = .finalized := ⟨rfl, rfl, rfl⟩

theorem witness_Append1 :
    (accepting 0xFFFFFFFFFFFFFFF0 []).phase = .accepting ∧ (accepting 0xFFFFFFFFFFFFFFF0 []).bitcnt.toNat ≤ 2 ^ 64 - 9 ∧
    (accepting 0xFFFFFFFFFFFFFFF8 []).bitcnt.toNat > 2 ^ 64 - 9 ∧ State.reset.phase = .uninit ∧
    finalized.phase = .finalized := by decide

theorem witness_Append2 :
    (accepting 0xFFFFFFFFFFFFFFE8 []).phase = .accepting ∧ (accepting 0xFFFFFFFFFFFFFFE8 []).bitcnt.toNat ≤ 2 ^ 64 - 17 ∧
    (accepting 0xFFFFFFFFFFFFFFF0 []).bitcnt.toNat > 2 ^ 64 - 17 ∧ State.reset.phase = .uninit ∧
    finalized.phase = .finalized := by decide

theorem witness_Append3 :
    (accepting 0xFFFFFFFFFFFFFFE0 []).phase = .accepting ∧ (accepting 0xFFFFFFFFFFFFFFE0 []).bitcnt.toNat ≤ 2 ^ 64 - 25 ∧
    (accepting 0xFFFFFFFFFFFFFFE8 []).bitcnt.toNat > 2 ^ 64 - 25 ∧ State.reset.phase = .uninit ∧
    finalized.phase = .finalized := by decide

/-- The bounds of `Appended` are met on both sides of a block's end. -/
theorem witness_Appended : (manyA 61).fill + 3 = 64 ∧ (manyA 60).fill + 3 < 64 ∧ (manyA 63).fill + 2 = 65 := by decide

theorem witness_Absorb : (manyA 63).bitcnt.toNat + 8 * ([0x62, 0x63] : List Byte).length ≤ 2 ^ 64 - 1 ∧
    (accepting 0xFFFFFFFFFFFFFFF0 []).bitcnt.toNat + 8 * ([0] : List Byte).length ≤ 2 ^ 64 - 1 := by decide

theorem witness_AppendSequence :
    (∀ i ∈ [Instr.append1 0x64, .append0, .append2 0x65 0x66], isAppend i = true) ∧ abc.phase = .accepting ∧
    ∃ t, absorb ([Instr.append1 0x64, .append0, .append2 0x65 0x66].flatMap payload) abc = some t :=
  ⟨by decide, rfl, _, absorb_some (by decide)⟩

theorem witness_AbsorbsSinceInit : ([[0x61], [], [0x62, 0x63]] : List (List Byte)).flatten.length < 2 ^ 61 := by decide

theorem witness_Finalize :
    (accepting 0xFFFFFFFFFFFFFDB8 []).phase = .accepting ∧ (accepting 0xFFFFFFFFFFFFFDB8 []).bitcnt.toNat % 8 = 0 ∧
    finalCount (accepting 0xFFFFFFFFFFFFFDB8 []) ≤ 2 ^ 64 - 1 ∧ finalCount abc = 512 ∧ finalCount (manyA 56) = 1024 := by
  decide +kernel

theorem witness_FinalizeFaults :
    (accepting 0xFFFFFFFFFFFFFDC0 []).phase = .accepting ∧ (accepting 0xFFFFFFFFFFFFFDC0 []).bitcnt.toNat % 8 = 0 ∧
    finalCount (accepting 0xFFFFFFFFFFFFFDC0 []) > 2 ^ 64 - 1 ∧ State.reset.phase = .uninit ∧ finalized.phase = .finalized := by
  decide +kernel

theorem witness_Padding : (0 : Nat) < 64 ∧ (55 : Nat) ≤ 55 ∧ (56 : Nat) < 64 ∧ (56 : Nat) ≤ 63 ∧ (63 : Nat) < 64 := by decide

theorem witness_DigestRegister : finalized.Inv ∧ finalized.phase = .finalized ∧ (0 : Nat) < 5 ∧ (4 : Nat) < 5 :=
  ⟨⟨rfl, fun _ => by decide, fun _ => by decide, fun _ => rfl⟩, rfl, by decide, by decide⟩

theorem witness_ReadDigest : finalized.phase = .finalized ∧ abc.phase ≠ .finalized ∧ (0 : Nat) < 5 ∧ (4 : Nat) < 5 ∧
    (0 : Nat) < 4 ∧ (3 : Nat) < 4 := by decide

theorem witness_ReadCounter : abc.phase ≠ .uninit ∧ State.reset.phase = .uninit := by decide

theorem witness_ReadReserved : (8 : Nat) ≤ 8 ∧ (8 : Nat) ≤ 15 ∧ (8 : Nat) ≤ 15 ∧ (15 : Nat) ≤ 15 := by decide

theorem witness_ReadHasNoSideEffect : ∃ t, exec (.read 7) abc = .next t := goes_on (by decide +kernel)

theorem witness_RotationMovesEachBit : (0 : Nat) < 32 ∧ (31 : Nat) < 32 := by decide

theorem witness_Stages : (0 : Nat) < 20 ∧ (19 : Nat) < 20 ∧ (40 : Nat) ≤ 40 ∧ (40 : Nat) < 60 ∧ (40 : Nat) ≤ 59 ∧ (59 : Nat) < 60 ∧
    (79 : Nat) < 80 := by decide

theorem witness_CircularBuffer : (0 : Nat) < 16 ∧ (15 : Nat) < 16 ∧ (16 : Nat) ≤ 16 ∧ (16 : Nat) < 80 ∧ (16 : Nat) ≤ 79 ∧
    (79 : Nat) < 80 := by decide

theorem witness_CompressionReads : abc.h = (manyA 63).h ∧ (0 : Nat) < 5 ∧ (4 : Nat) < 5 := ⟨rfl, by decide, by decide⟩

theorem witness_StepKeepsTheInvariant : (given 0x21640000 abc).Inv ∧ ∃ t, step (given 0x21640000 abc) = .next t :=
  ⟨⟨by decide, fun _ => by decide, fun h => (nomatch h), fun h => (nomatch h)⟩, goes_on (by decide +kernel)⟩

theorem witness_StepKeepsTheMessage :
    (given 0x20000000 abc).HoldsMessage ∧ (∃ t, step (given 0x20000000 abc) = .next t) ∧ State.reset.HoldsMessage :=
  ⟨⟨[0x61, 0x62, 0x63], by decide +kernel, by decide +kernel, by decide +kernel⟩, goes_on (by decide +kernel), trivial⟩

/-- A step of each kind that goes on. -/
theorem witness_Steps :
    abc.port = [] ∧ (∃ t, step abc = .next t) ∧ (∃ t, step { abc with port := [.reset] } = .next t) ∧
    (decode 0x10000000 = .ok .init ∧ ∃ t, step (given 0x10000000 abc) = .next t) ∧
    (decode 0x30000000 = .ok .finalize ∧ ∃ t, step (given 0x30000000 abc) = .next t) ∧
    (decode 0x20000000 = .ok .append0 ∧ ∃ t, step (given 0x20000000 abc) = .next t) ∧
    (decode 0x40000006 = .ok (.read 6) ∧ ∃ t, step (given 0x40000006 abc) = .next t) :=
  ⟨rfl, ⟨_, rfl⟩, ⟨_, rfl⟩, ⟨by decide, goes_on (by decide +kernel)⟩, ⟨by decide, goes_on (by decide +kernel)⟩,
    ⟨by decide, goes_on (by decide +kernel)⟩, ⟨by decide, goes_on (by decide +kernel)⟩⟩

theorem witness_ChainingStateChanges : ∃ t, exec (.append1 0x61) (manyA 63) = .next t ∧ t.h ≠ (manyA 63).h := by
  obtain ⟨t, h1, h2⟩ := after_some (f := State.h) (o := exec (.append1 0x61) (manyA 63))
    (a := #v[0xDA4968EB, 0x2E377C1F, 0x884E8F52, 0x83524BEB, 0xE74EBDBD]) (by decide +kernel)
  exact ⟨t, h1, by rw [h2]; decide +kernel⟩

theorem witness_CounterNeverDecreases : (∃ t, exec (.append1 0x64) abc = .next t) ∧ Instr.append1 0x64 ≠ .init :=
  ⟨goes_on (by decide +kernel), by decide⟩

theorem witness_OneWriter : (∃ t, exec (.read 0) abc = .next t) ∧ (∃ t, exec .init abc = .next t) ∧ Instr.init ≠ .finalize :=
  ⟨goes_on (by decide +kernel), goes_on (by decide +kernel), by decide⟩

/-- The two engines differ in invalid bytes, in WR and in DG. -/
theorem witness_SameDefined :
    (given 0x30000000 abc).SameDefined { given 0x30000000 abc with
      bb := [(0, 0x61), (1, 0x62), (2, 0x63), (3, 0xFF)], wr := initialH, dg := Vector.replicate 20 0xFF } :=
  ⟨rfl, rfl, rfl, rfl, fun _ => rfl, fun _ => rfl, fun _ => by decide, fun h => nomatch h⟩

theorem witness_Appends : (Assembler.appends [0x61, 0x62, 0x63, 0x64])[1]? = some (.append1 0x64) := by decide

theorem witness_HashThenReadDigest :
    Reference.paddedFits [0x61, 0x62, 0x63] ∧
    { State.reset with port := asInputs (Assembler.hash [0x61, 0x62, 0x63] ++ Assembler.readDigest) ++ [HostInput.reset] }.port =
      asInputs (Assembler.hash [0x61, 0x62, 0x63] ++ Assembler.readDigest) ++ [HostInput.reset] :=
  ⟨by unfold Reference.paddedFits; decide, rfl⟩

theorem witness_PaddedMessage : Reference.paddedFits [] ∧ 0 < Reference.zeroCount ([] : List Byte).length ∧
    54 < Reference.zeroCount ([] : List Byte).length ∧ (0 : Nat) < 8 ∧ (7 : Nat) < 8 :=
  ⟨by unfold Reference.paddedFits; decide, by decide, by decide, by decide, by decide⟩

theorem witness_Engines : (0 : Nat) ≠ 1 ∧ ([.next State.reset, .next abc] : Platform)[1]? = some (.next abc) := ⟨by decide, rfl⟩

/-- The canonical form holds of reset's buffer. -/
theorem test_reset_memory_wf : State.reset.bb.wf = true := by decide

end Sys2Proof.Tests
end

/-! PROOFS. The platform: what a step of one engine does at each index, and that engines are independent. -/

namespace Sys2Proof.Machine

@[simp] theorem stepAgain_next (s : State) : stepAgain (.next s) = step s := rfl

@[simp] theorem Platform.getElem?_stepEngine_self (p : Platform) (k : Nat) :
    (p.stepEngine k)[k]? = p[k]?.map stepAgain :=
  List.getElem?_modify_eq stepAgain k p

@[simp] theorem Platform.getElem?_stepEngine_of_ne (p : Platform) {j k : Nat} (hjk : j ≠ k) :
    (p.stepEngine k)[j]? = p[j]? :=
  List.getElem?_modify_ne stepAgain p hjk.symm

/-- Seen at index `i`, at most one of the two steps acts: the case split is on which engine stands there. -/
theorem Platform.stepEngine_comm (p : Platform) {j k : Nat} (hjk : j ≠ k) :
    (p.stepEngine j).stepEngine k = (p.stepEngine k).stepEngine j := by
  apply List.ext_getElem?
  intro i
  by_cases hij : i = j
  · subst hij
    simp [hjk]
  · by_cases hik : i = k
    · subst hik
      simp [hij]
    · simp [hij, hik]

theorem one_le_nEngines : 1 ≤ Config.nEngines := Nat.le_add_left 1 Config.furtherEngines

/-- Settles O53: the engines are a list, and a step of engine `k` rewrites the entry at index `k` alone. -/
theorem enginesAreIndependent : Obligations.EnginesAreIndependent := by
  unfold Obligations.EnginesAreIndependent
  refine ⟨one_le_nEngines, ?frame, ?ownStep, ?commute⟩
  case frame => exact fun p _ _ hjk => p.getElem?_stepEngine_of_ne hjk
  case ownStep =>
    intro p k s hs
    simp [hs]
  case commute => exact fun p _ _ hjk => p.stepEngine_comm hjk

end Sys2Proof.Machine

/-! PROOFS. What an absorb, a step and a READ answer, each said once: equations per case, used by the proofs below. -/

namespace Sys2Proof.Machine

/-! ### Absorbing -/

/-- FILL moves on by one modulo 64, also where the counter wraps: 64 bytes divide its range. -/
@[simp] theorem absorbByte_fill (s : State) (b : Byte) : (absorbByte s b).fill = (s.fill + 1) % 64 := by
  simp only [State.fill, absorbByte_bitcnt, addBytes, BitVec.toNat_add, BitVec.toNat_ofNat]
  omega

/-- H is written where the byte completes the block, which is the valid bytes and that byte (41_init_append.md R114). -/
theorem absorbByte_h (s : State) (b : Byte) : (absorbByte s b).h =
    if s.fill = 63 then compressed s.h (Reference.blockAt (s.validBytes ++ [b]) 0) else s.h := by
  unfold absorbByte
  split
  case isTrue h63 =>
    have hblock : (s.storeByte b).bb.firstBytes 64 = s.validBytes ++ [b] := by
      rw [State.storeByte_bb, State.validBytes, h63, Memory.firstBytes_write]
    rw [compress_h, State.storeByte_h, block_of_firstBytes hblock]
  case isFalse => rfl

/-- The byte joins the valid bytes; a completed block leaves none. -/
theorem absorbByte_validBytes (s : State) (b : Byte) :
    (absorbByte s b).validBytes = if s.fill = 63 then [] else s.validBytes ++ [b] := by
  simp only [State.validBytes, absorbByte_bb, absorbByte_fill]
  split
  case isTrue h63 => rw [h63, Memory.firstBytes_zero]
  case isFalse h63 =>
    have hlt := fill_lt s
    rw [Nat.mod_eq_of_lt (by omega), Memory.firstBytes_write]

/-- Bytes that complete no block leave H (10_state.md R23). -/
theorem foldl_absorbByte_h (p : List Byte) (s : State) (hp : s.fill + p.length < 64) : (p.foldl absorbByte s).h = s.h := by
  induction p generalizing s with
  | nil => rfl
  | cons b p ih =>
    simp only [List.length_cons] at hp
    have hfill : (absorbByte s b).fill = s.fill + 1 := by rw [absorbByte_fill, Nat.mod_eq_of_lt (by omega)]
    rw [List.foldl_cons, ih _ (by omega), absorbByte_h, if_neg (by omega)]

theorem absorb_count {p : List Byte} {s t : State} (h : absorb p s = some t) :
    t.bitcnt.toNat = s.bitcnt.toNat + 8 * p.length := by
  obtain ⟨hfits, rfl⟩ := absorb_eq_some h
  exact foldl_absorbByte_count p s hfits

theorem absorb_phase {p : List Byte} {s t : State} (h : absorb p s = some t) : t.phase = s.phase := by
  obtain ⟨-, rfl⟩ := absorb_eq_some h
  exact (foldl_absorbByte_frame p s).1

/-! ### Padding -/

/-- Zero padding only adds to the counter. -/
theorem padZeros_count_le {n : Nat} {s t : State} (h : padZeros n s = some t) : s.bitcnt.toNat ≤ t.bitcnt.toNat := by
  induction n generalizing s with
  | zero => cases h
  | succ n ih =>
    unfold padZeros at h
    split at h
    · cases h
      exact le_rfl
    · split at h
      · rename_i u hu
        have hcount := absorb_count hu
        have hle := ih h
        omega
      · cases h

/-- The three parts of FINALIZE's padding, one after the other (42_finalize.md R130). -/
theorem padMessage_eq_bind (s : State) : padMessage s =
    (absorb [0x80] s).bind fun s1 => (padZeros 64 s1).bind fun s2 => absorb (be64Bytes s.bitcnt) s2 := by
  unfold padMessage
  cases absorb [0x80] s with
  | none => rfl
  | some s1 =>
    simp only [Option.bind_some]
    cases padZeros 64 s1 <;> rfl

/-- The counter after padding: whole blocks (42_finalize.md R134), and no less than before. -/
theorem padMessage_count {s t : State} (h : padMessage s = some t) :
    t.bitcnt.toNat % 512 = 0 ∧ s.bitcnt.toNat ≤ t.bitcnt.toNat := by
  simp only [padMessage_eq_bind, Option.bind_eq_some_iff] at h
  obtain ⟨s1, h1, s2, h2, h3⟩ := h
  have hone := absorb_count h1
  have hzeros := padZeros_count_le h2
  obtain ⟨h448, -⟩ := padZeros_some h2
  have hlength := absorb_count h3
  rw [length_be64Bytes] at hlength
  omega

/-- Padding keeps PHASE, the command index and the two interfaces. -/
theorem padMessage_frame {s t : State} (h : padMessage s = some t) :
    t.phase = s.phase ∧ t.cix = s.cix ∧ t.port = s.port ∧ t.resp = s.resp := by
  obtain ⟨z, rfl⟩ := padMessage_some h
  obtain ⟨hphase, -, hcix, hport, hresp⟩ :=
    foldl_absorbByte_frame ([0x80] ++ List.replicate z 0x00 ++ be64Bytes s.bitcnt) s
  exact ⟨hphase, hcix, hport, hresp⟩

/-! ### READ, one equation per register -/

theorem execRead_status (s : State) : execRead 0 s = .next (s.emit (statusWord s)) := rfl

theorem execRead_digest {s : State} {k : Nat} (hk : k < 5) (hp : s.phase = .finalized) :
    execRead (k + 1) s = .next (s.emit (digestWord s.dg ⟨k, hk⟩)) := by
  rw [execRead, if_neg (by omega), dif_pos ⟨by omega, by omega⟩, if_pos hp]
  rfl

theorem execRead_digest_fault {s : State} {k : Nat} (hk : k < 5) (hp : s.phase ≠ .finalized) :
    execRead (k + 1) s = raise .digestNotValid (.read (k + 1)) s := by
  rw [execRead, if_neg (by omega), dif_pos ⟨by omega, by omega⟩, if_neg hp]

theorem execRead_countLo (s : State) : execRead 6 s =
    if s.phase = .uninit then raise .counterNotValid (.read 6) s else .next (s.emit (countLo s.bitcnt)) := rfl

theorem execRead_countHi (s : State) : execRead 7 s =
    if s.phase = .uninit then raise .counterNotValid (.read 7) s else .next (s.emit (countHi s.bitcnt)) := rfl

theorem execRead_reserved {reg : Nat} (hreg : 8 ≤ reg) (s : State) :
    execRead reg s = raise .reservedRegister (.read reg) s := by
  rw [execRead, if_neg (by omega), dif_neg (by omega), if_neg (by omega), if_neg (by omega)]

/-- The register map of READ (10_state.md section 9): every index is one of these. -/
theorem register_cases (reg : Nat) :
    reg = 0 ∨ (∃ k < 5, reg = k + 1) ∨ reg = 6 ∨ reg = 7 ∨ 8 ≤ reg := by
  by_cases h : 1 ≤ reg ∧ reg ≤ 5
  · exact .inr (.inl ⟨reg - 1, by omega, by omega⟩)
  · omega

/-- The word of READ DIGESTk. -/
theorem encode_read_digest {k : Nat} (hk : k < 5) : encode (.read (k + 1)) = 0x40000001 + BitVec.ofNat 32 k := by
  have hall : ∀ k < 5, encode (.read (k + 1)) = 0x40000001 + BitVec.ofNat 32 k := by decide
  exact hall k hk

/-! ### No refusal -/

theorem appendPayload_ne_refused (i : Instr) (s : State) (r : Refusal) : appendPayload i s ≠ .refused r := by
  unfold appendPayload
  split
  · nofun
  · nofun
  · split <;> nofun

theorem execFinalize_ne_refused (s : State) (r : Refusal) : execFinalize s ≠ .refused r := by
  unfold execFinalize
  split
  · nofun
  · nofun
  · split <;> nofun

theorem execRead_ne_refused (reg : Nat) (s : State) (r : Refusal) : execRead reg s ≠ .refused r := by
  unfold execRead
  repeat' split
  all_goals nofun

/-- Every command has a meaning: no arm of `exec` refuses. -/
theorem exec_ne_refused (i : Instr) (s : State) (r : Refusal) : exec i s ≠ .refused r := by
  cases i with
  | init => nofun
  | append0 => exact appendPayload_ne_refused _ s r
  | append1 b0 => exact appendPayload_ne_refused _ s r
  | append2 b0 b1 => exact appendPayload_ne_refused _ s r
  | append3 b0 b1 b2 => exact appendPayload_ne_refused _ s r
  | finalize => exact execFinalize_ne_refused s r
  | read reg => exact execRead_ne_refused reg s r

/-! ### The step, one equation per kind of input -/

theorem dropInput_eq_withPort {s : State} {x : HostInput} {rest : List HostInput} (hport : s.port = x :: rest) :
    s.dropInput = s.withPort rest := by
  rw [State.dropInput, hport]
  rfl

theorem step_nil {s : State} (hport : s.port = []) : step s = .next s := by
  unfold step
  rw [hport]

theorem step_reset {s : State} {rest : List HostInput} (hport : s.port = .reset :: rest) :
    step s = .next (s.withPort rest).hardwareReset := by
  rw [← dropInput_eq_withPort hport]
  unfold step
  rw [hport]

theorem step_command {s : State} {w : Word} {rest : List HostInput} (hport : s.port = .command w :: rest) :
    step s = runCommand w (s.withPort rest) := by
  rw [← dropInput_eq_withPort hport]
  unfold step
  rw [hport]

theorem runCommand_ok {w : Word} {i : Instr} (hdec : decode w = .ok i) (s : State) :
    runCommand w s = complete (exec i s) := by
  unfold runCommand
  rw [hdec]

theorem runCommand_error {w : Word} {e : DecodeError} (hdec : decode w = .error e) (s : State) :
    runCommand w s = .fault (decodeFault e s.cix w) := by
  unfold runCommand
  rw [hdec]

/-- A step that consumes a command word and goes on has run the decoded command and counted it. -/
theorem step_command_next {s t : State} {w : Word} {rest : List HostInput} (hport : s.port = .command w :: rest)
    (h : step s = .next t) :
    ∃ i u, decode w = .ok i ∧ exec i (s.withPort rest) = .next u ∧ t = u.countCommand := by
  obtain ⟨hnil, -⟩ | ⟨_, hreset, -⟩ | ⟨w', rest', i, u, hport', hdec, hexec, rfl⟩ := step_next h
  · cases hnil.symm.trans hport
  · cases hreset.symm.trans hport
  · cases hport'.symm.trans hport
    rw [dropInput_eq_withPort hport] at hexec
    exact ⟨i, u, hdec, hexec, rfl⟩

end Sys2Proof.Machine

/-! PROOFS. The invariant between commands. -/

namespace Sys2Proof.Machine

/-- A state that differs only where the invariant does not look. -/
theorem State.Inv.congr {s t : State} (hinv : s.Inv) (hphase : t.phase = s.phase) (hh : t.h = s.h)
    (hbitcnt : t.bitcnt = s.bitcnt) (hbb : t.bb = s.bb) (hdg : t.dg = s.dg) : t.Inv where
  buffer := by rw [hbb]; exact hinv.buffer
  wholeBytes := by rw [hphase, hbitcnt]; exact hinv.wholeBytes
  wholeBlocks := by rw [hphase, hbitcnt]; exact hinv.wholeBlocks
  digestStored := by rw [hphase, hdg, hh]; exact hinv.digestStored

/-- In UNINIT the invariant speaks of the block buffer alone. -/
theorem State.Inv.of_uninit {s : State} (hp : s.phase = .uninit) (hbuf : s.bb.wf = true) : s.Inv := by
  refine ⟨hbuf, fun h => absurd hp h, fun h => ?_, fun h => ?_⟩ <;> cases hp.symm.trans h

/-- In ACCEPTING the invariant asks for a canonical buffer and whole bytes. -/
theorem State.Inv.of_accepting {s : State} (hp : s.phase = .accepting) (hbuf : s.bb.wf = true)
    (hbytes : s.bitcnt.toNat % 8 = 0) : s.Inv := by
  refine ⟨hbuf, fun _ => hbytes, fun h => ?_, fun h => ?_⟩ <;> cases hp.symm.trans h

theorem startMessage_inv (s : State) : s.startMessage.Inv := .of_accepting rfl rfl rfl

theorem absorb_inv {p : List Byte} {s t : State} (hinv : s.Inv) (hp : s.phase = .accepting) (h : absorb p s = some t) :
    t.Inv := by
  have hphase : t.phase = .accepting := (absorb_phase h).trans hp
  have hcount := absorb_count h
  have hbytes := hinv.wholeBytes (by rw [hp]; decide)
  obtain ⟨-, rfl⟩ := absorb_eq_some h
  exact .of_accepting hphase (foldl_absorbByte_wf p s hinv.buffer) (by omega)

theorem storeDigest_inv {s : State} (hbuf : s.bb.wf = true) (hblocks : s.bitcnt.toNat % 512 = 0) : s.storeDigest.Inv where
  buffer := hbuf
  wholeBytes _ := by rw [State.storeDigest_bitcnt]; omega
  wholeBlocks _ := hblocks
  digestStored _ := rfl

theorem exec_inv {i : Instr} {s t : State} (hinv : s.Inv) (h : exec i s = .next t) : t.Inv := by
  obtain ⟨-, rfl⟩ | ⟨-, hp, habs⟩ | ⟨-, -, u, hpad, rfl⟩ | ⟨_, w, -, rfl⟩ := exec_next h
  case inl => exact startMessage_inv s
  case inr.inl => exact absorb_inv hinv hp habs
  case inr.inr.inl =>
    obtain ⟨hblocks, -⟩ := padMessage_count hpad
    obtain ⟨z, rfl⟩ := padMessage_some hpad
    exact storeDigest_inv (foldl_absorbByte_wf _ s hinv.buffer) hblocks
  case inr.inr.inr => exact hinv.congr rfl rfl rfl rfl rfl

/-- Settles O41: a reset leaves UNINIT, where only the buffer counts; a command keeps the invariant by `exec_inv`, and
taking its word from the port and counting it touch nothing the invariant speaks of. -/
theorem stepKeepsTheInvariant : Obligations.StepKeepsTheInvariant := by
  unfold Obligations.StepKeepsTheInvariant
  intro s t hinv h
  obtain ⟨-, rfl⟩ | ⟨_, -, rfl⟩ | ⟨_, _, i, u, -, -, hexec, rfl⟩ := step_next h
  case inl => exact hinv
  case inr.inl => exact .of_uninit rfl hinv.buffer
  case inr.inr =>
    have hdrop : s.dropInput.Inv := hinv.congr rfl rfl rfl rfl rfl
    exact (exec_inv hdrop hexec).congr rfl rfl rfl rfl rfl

end Sys2Proof.Machine

/-! PROOFS. Two engines that agree on the defined values. Each operation writes defined values from defined values alone, so
it keeps the agreement; the engines fault together since PHASE, BITCNT and the index decide every fault. -/

namespace Sys2Proof.Machine

theorem State.fill_congr {s t : State} (h : s.bitcnt = t.bitcnt) : s.fill = t.fill := by rw [State.fill, h, State.fill]

namespace State.SameDefined

variable {s t : State} (same : s.SameDefined t)
include same

theorem startMessage : s.startMessage.SameDefined t.startMessage :=
  ⟨rfl, same.cix, same.port, same.resp, fun _ => rfl, fun _ => rfl, fun _ => rfl, nofun⟩

theorem emit (w : Word) : (s.emit w).SameDefined (t.emit w) :=
  ⟨same.phase, same.cix, same.port, congrArg (· ++ [w]) same.resp, same.h, same.bitcnt, same.valid, same.dg⟩

theorem hardwareReset : s.hardwareReset.SameDefined t.hardwareReset :=
  ⟨rfl, rfl, same.port, rfl, fun hp => absurd rfl hp, fun hp => absurd rfl hp, fun hp => absurd rfl hp, nofun⟩

theorem withPort (p : List HostInput) : (s.withPort p).SameDefined (t.withPort p) :=
  ⟨same.phase, same.cix, rfl, same.resp, same.h, same.bitcnt, same.valid, same.dg⟩

theorem countCommand : s.countCommand.SameDefined t.countCommand :=
  ⟨same.phase, congrArg (· + 1) same.cix, same.port, same.resp, same.h, same.bitcnt, same.valid, same.dg⟩

theorem storeDigest (hp : s.phase ≠ .uninit) : s.storeDigest.SameDefined t.storeDigest :=
  ⟨rfl, same.cix, same.port, same.resp, fun _ => same.h hp, fun _ => same.bitcnt hp, fun _ => same.valid hp,
    fun _ => congrArg digestBytes (same.h hp)⟩

theorem absorbByte (b : Byte) : (absorbByte s b).SameDefined (absorbByte t b) where
  phase := by simpa using same.phase
  cix := by simpa using same.cix
  port := by simpa using same.port
  resp := by simpa using same.resp
  h hp := by
    rw [absorbByte_phase] at hp
    rw [absorbByte_h, absorbByte_h, fill_congr (same.bitcnt hp), same.valid hp, same.h hp]
  bitcnt hp := by
    rw [absorbByte_phase] at hp
    rw [absorbByte_bitcnt, absorbByte_bitcnt, same.bitcnt hp]
  valid hp := by
    rw [absorbByte_phase] at hp
    rw [absorbByte_validBytes, absorbByte_validBytes, fill_congr (same.bitcnt hp), same.valid hp]
  dg := by simpa using same.dg

theorem foldl_absorbByte (p : List Byte) :
    (p.foldl Machine.absorbByte s).SameDefined (p.foldl Machine.absorbByte t) := by
  induction p generalizing s t with
  | nil => exact same
  | cons b p ih => exact ih (same.absorbByte b)

theorem statusWord_eq : statusWord s = statusWord t := by
  have hfill : s.shownFill = t.shownFill := by
    unfold shownFill
    rw [← same.phase]
    split
    case isTrue => rfl
    case isFalse hp => exact fill_congr (same.bitcnt hp)
  rw [statusWord, statusWord, hfill, same.phase]

theorem raise (code : Nat → Word → Fault) (i : Instr) :
    sameOutcome State.SameDefined (raise code i s) (raise code i t) := congrArg (fun c => code c (encode i)) same.cix

end State.SameDefined

/-- Two related options are both empty or both hold related values. -/
theorem optionRel_cases {α : Type} {R : α → α → Prop} {a b : Option α} (h : Option.Rel R a b) :
    (a = none ∧ b = none) ∨ ∃ x y, a = some x ∧ b = some y ∧ R x y := by
  cases h with
  | none => exact .inl ⟨rfl, rfl⟩
  | some hxy => exact .inr ⟨_, _, rfl, rfl, hxy⟩

/-- Two engines in ACCEPTING that agree on the defined values. -/
structure State.SameMessage (s t : State) : Prop where
  accepting : s.phase = .accepting
  defined : s.SameDefined t

namespace State.SameMessage

variable {s t : State} (both : s.SameMessage t)
include both

theorem bitcnt : s.bitcnt = t.bitcnt := both.defined.bitcnt (by rw [both.accepting]; decide)

/-- The overflow check reads BITCNT alone, so both absorb or both overflow. -/
theorem absorb (p : List Byte) : Option.Rel State.SameMessage (absorb p s) (absorb p t) := by
  unfold Machine.absorb
  rw [← both.bitcnt]
  split
  case isTrue => exact .some ⟨(foldl_absorbByte_frame p s).1.trans both.accepting, both.defined.foldl_absorbByte p⟩
  case isFalse => exact .none

theorem padZeros (n : Nat) : Option.Rel State.SameMessage (padZeros n s) (padZeros n t) := by
  induction n generalizing s t with
  | zero => exact .none
  | succ n ih =>
    unfold Machine.padZeros
    rw [← both.bitcnt]
    split
    case isTrue => exact .some both
    case isFalse =>
      obtain ⟨hs, ht⟩ | ⟨u, v, hs, ht, huv⟩ := optionRel_cases (both.absorb [0x00]) <;> rw [hs, ht]
      · exact .none
      · exact ih huv

theorem padMessage : Option.Rel State.SameMessage (padMessage s) (padMessage t) := by
  unfold Machine.padMessage
  rw [← both.bitcnt]
  obtain ⟨hs, ht⟩ | ⟨s1, t1, hs, ht, h1⟩ := optionRel_cases (both.absorb [0x80]) <;> simp only [hs, ht]
  · exact .none
  · obtain ⟨hs, ht⟩ | ⟨s2, t2, hs, ht, h2⟩ := optionRel_cases (h1.padZeros 64) <;> simp only [hs, ht]
    · exact .none
    · exact h2.absorb _

end State.SameMessage

namespace State.SameDefined

variable {s t : State} (same : s.SameDefined t)
include same

theorem appendPayload (i : Instr) :
    sameOutcome State.SameDefined (appendPayload i s) (appendPayload i t) := by
  unfold Machine.appendPayload
  rw [← same.phase]
  cases hp : s.phase with
  | uninit => exact same.raise _ i
  | finalized => exact same.raise _ i
  | accepting =>
    obtain ⟨hs, ht⟩ | ⟨u, v, hs, ht, huv⟩ := optionRel_cases (SameMessage.absorb ⟨hp, same⟩ (payload i)) <;>
      simp only [hs, ht]
    · exact same.raise _ i
    · exact huv.defined

theorem execFinalize : sameOutcome State.SameDefined (execFinalize s) (execFinalize t) := by
  unfold Machine.execFinalize
  rw [← same.phase]
  cases hp : s.phase with
  | uninit => exact same.raise _ _
  | finalized => exact same.raise _ _
  | accepting =>
    obtain ⟨hs, ht⟩ | ⟨u, v, hs, ht, huv⟩ := optionRel_cases (SameMessage.padMessage ⟨hp, same⟩) <;>
      simp only [hs, ht]
    · exact same.raise _ _
    · exact huv.defined.storeDigest (by rw [huv.accepting]; decide)

theorem execRead (reg : Nat) : sameOutcome State.SameDefined (execRead reg s) (execRead reg t) := by
  obtain rfl | ⟨k, hk, rfl⟩ | rfl | rfl | hreg := register_cases reg
  case inl =>
    rw [execRead_status, execRead_status, same.statusWord_eq]
    exact same.emit _
  case inr.inl =>
    by_cases hp : s.phase = .finalized
    · rw [execRead_digest hk hp, execRead_digest hk (same.phase ▸ hp), same.dg hp]
      exact same.emit _
    · rw [execRead_digest_fault hk hp, execRead_digest_fault hk (same.phase ▸ hp)]
      exact same.raise _ _
  case inr.inr.inl =>
    rw [execRead_countLo, execRead_countLo, ← same.phase]
    split
    case isTrue => exact same.raise _ _
    case isFalse hp =>
      rw [same.bitcnt hp]
      exact same.emit _
  case inr.inr.inr.inl =>
    rw [execRead_countHi, execRead_countHi, ← same.phase]
    split
    case isTrue => exact same.raise _ _
    case isFalse hp =>
      rw [same.bitcnt hp]
      exact same.emit _
  case inr.inr.inr.inr =>
    rw [execRead_reserved hreg, execRead_reserved hreg]
    exact same.raise _ _

theorem exec (i : Instr) : sameOutcome State.SameDefined (exec i s) (exec i t) := by
  cases i with
  | init => exact same.startMessage
  | append0 => exact same.appendPayload _
  | append1 b0 => exact same.appendPayload _
  | append2 b0 b1 => exact same.appendPayload _
  | append3 b0 b1 b2 => exact same.appendPayload _
  | finalize => exact same.execFinalize
  | read reg => exact same.execRead reg

end State.SameDefined

/-- Counting the command keeps the agreement of two outcomes. -/
theorem sameOutcome_complete {o o' : Host.Outcome State Fault Refusal} (same : sameOutcome State.SameDefined o o') :
    sameOutcome State.SameDefined (complete o) (complete o') := by
  cases o with
  | next s =>
    cases o' with
    | next t => exact State.SameDefined.countCommand same
    | fault f => exact same
    | refused r => exact same
  | fault f => cases o' <;> exact same
  | refused r => cases o' <;> exact same

theorem State.SameDefined.runCommand {s t : State} (same : s.SameDefined t) (w : Word) :
    sameOutcome State.SameDefined (runCommand w s) (runCommand w t) := by
  cases hdec : decode w with
  | error e =>
    rw [runCommand_error hdec, runCommand_error hdec, same.cix]
    rfl
  | ok i =>
    rw [runCommand_ok hdec, runCommand_ok hdec]
    exact sameOutcome_complete (same.exec i)

/-- Settles O49: agreeing engines have the same oldest input, and whichever it is, the step keeps the agreement. -/
theorem unspecifiedValuesAreNeverSeen : Obligations.UnspecifiedValuesAreNeverSeen := by
  unfold Obligations.UnspecifiedValuesAreNeverSeen
  intro s t same
  match hport : s.port with
  | [] =>
    rw [step_nil hport, step_nil (same.port ▸ hport)]
    exact same
  | .reset :: rest =>
    rw [step_reset hport, step_reset (same.port ▸ hport)]
    exact (same.withPort rest).hardwareReset
  | .command w :: rest =>
    rw [step_command hport, step_command (same.port ▸ hport)]
    exact (same.withPort rest).runCommand w

end Sys2Proof.Machine

/-! PROOFS. What each command may change: DIGESTk, PHASE, H, BITCNT, the interfaces and the command index. -/

namespace Sys2Proof.Machine

/-! ### The DIGEST registers -/

/-- DIGESTk of a stored digest is the word of the chaining state it was stored from (10_state.md R41). -/
theorem digestWord_digestBytes (h : Vector Word 5) {k : Nat} (hk : k < 5) :
    digestWord (digestBytes h) ⟨k, hk⟩ = h[k] := by
  have hbyte0 : (digestBytes h)[4 * k] = wordByte h[k] 0 := getElem_digestBytes h k 0 hk (by decide)
  rw [digestWord, hbyte0, getElem_digestBytes h k 1 hk (by decide), getElem_digestBytes h k 2 hk (by decide),
    getElem_digestBytes h k 3 hk (by decide)]
  exact (word_eq_be32 h[k]).symm

/-- Byte `j` of DIGESTk is DG[4k + j], the first the most significant (20_memory.md R52). -/
theorem digestWord_byte (dg : Vector Byte 20) (k : Fin 5) {j : Nat} (hj : j < 4) :
    (digestWord dg k).extractLsb' (24 - 8 * j) 8 = dg[4 * k.val + j] := by
  rw [digestWord, be32_byte _ _ _ _ j hj]
  interval_cases j <;> rfl

/-- Settles O27: in FINALIZED the invariant says that DG holds the words of H. -/
theorem digestRegisterIsTheChainingWord : Obligations.DigestRegisterIsTheChainingWord := by
  unfold Obligations.DigestRegisterIsTheChainingWord
  intro s k hk hinv hp
  have hread : exec (.read (k + 1)) s = .next (s.emit (digestWord s.dg ⟨k, hk⟩)) := execRead_digest hk hp
  have hword : digestWord s.dg ⟨k, hk⟩ = s.h[k] := by rw [hinv.digestStored hp, digestWord_digestBytes]
  rw [hread, hword]
  rfl

/-- Settles O29: the word read is `digestWord`, whose bytes are those of DG; outside FINALIZED it is F6. -/
theorem readDigestEmitsFourBytes : Obligations.ReadDigestEmitsFourBytes := by
  unfold Obligations.ReadDigestEmitsFourBytes
  intro s k hk
  refine ⟨fun hp => ⟨digestWord s.dg ⟨k, hk⟩, execRead_digest hk hp, fun j hj => digestWord_byte s.dg ⟨k, hk⟩ hj⟩,
    fun hp => ?_⟩
  have hfault : exec (.read (k + 1)) s = raise .digestNotValid (.read (k + 1)) s := execRead_digest_fault hk hp
  rw [hfault, raise, encode_read_digest hk]

/-! ### PHASE -/

theorem exec_init_phase {s t : State} (h : exec .init s = .next t) : t.phase = .accepting := by
  cases h
  rfl

theorem exec_append_phase {i : Instr} {s t : State} (hi : isAppend i = true) (h : exec i s = .next t) :
    s.phase = .accepting ∧ t.phase = .accepting := by
  rw [exec_append hi] at h
  obtain ⟨hp, habs⟩ := appendPayload_next h
  exact ⟨hp, (absorb_phase habs).trans hp⟩

theorem exec_finalize_phase {s t : State} (h : exec .finalize s = .next t) :
    s.phase = .accepting ∧ t.phase = .finalized := by
  obtain ⟨hp, _, -, rfl⟩ := execFinalize_next h
  exact ⟨hp, rfl⟩

theorem exec_read_phase {reg : Nat} {s t : State} (h : exec (.read reg) s = .next t) : t.phase = s.phase := by
  obtain ⟨_, rfl⟩ := execRead_next h
  rfl

/-- Settles O44: a step that goes on has waited, reset, or run the decoded command, whose PHASE is known per command. -/
theorem phaseChangesByLifeCycleOnly : Obligations.PhaseChangesByLifeCycleOnly := by
  unfold Obligations.PhaseChangesByLifeCycleOnly
  intro s t h
  refine ⟨fun hport => ?wait, fun rest hport => ?reset, fun w rest hport => ?command⟩
  case wait =>
    cases (step_nil hport).symm.trans h
    rfl
  case reset =>
    cases (step_reset hport).symm.trans h
    rfl
  case command =>
    obtain ⟨i, u, hdec, hexec, rfl⟩ := step_command_next hport h
    have hrun : ∀ j, decode w = .ok j → exec j (s.withPort rest) = .next u := fun j hj => by
      cases hdec.symm.trans hj
      exact hexec
    rw [State.countCommand_phase, ← State.withPort_phase rest s]
    refine ⟨fun hj => ?_, fun hj => ?_, fun j hj happend => ?_, fun reg hj => ?_⟩
    · exact exec_init_phase (hrun _ hj)
    · exact exec_finalize_phase (hrun _ hj)
    · exact exec_append_phase happend (hrun _ hj)
    · exact exec_read_phase (hrun _ hj)

/-! ### H and BITCNT -/

/-- Settles O45: READ does not write H, and an APPEND that completes no block does not either. -/
theorem chainingStateChangesByInitAndBlocksOnly : Obligations.ChainingStateChangesByInitAndBlocksOnly := by
  unfold Obligations.ChainingStateChangesByInitAndBlocksOnly
  intro i s t h hne
  obtain ⟨rfl, -⟩ | ⟨hi, -, habs⟩ | ⟨rfl, -⟩ | ⟨_, w, -, rfl⟩ := exec_next h
  case inl => exact .inl rfl
  case inr.inl =>
    obtain ⟨-, rfl⟩ := absorb_eq_some habs
    have hblock : ¬ s.fill + (payload i).length < 64 := fun hlt => hne (foldl_absorbByte_h _ s hlt)
    exact .inr (.inr ⟨hi, Nat.le_of_not_lt hblock⟩)
  case inr.inr.inl => exact .inr (.inl rfl)
  case inr.inr.inr => exact absurd rfl hne

/-- Settles O46: an absorb adds to the counter without wrapping, and so does padding; READ leaves it. -/
theorem counterNeverDecreases : Obligations.CounterNeverDecreases := by
  unfold Obligations.CounterNeverDecreases
  intro i s t h hi
  obtain ⟨rfl, -⟩ | ⟨-, -, habs⟩ | ⟨-, -, u, hpad, rfl⟩ | ⟨_, w, -, rfl⟩ := exec_next h
  case inl => exact absurd rfl hi
  case inr.inl =>
    have hcount := absorb_count habs
    omega
  case inr.inr.inl => exact (padMessage_count hpad).2
  case inr.inr.inr => exact le_rfl

/-! ### The interfaces and the command index -/

/-- No command touches the port or the command index by itself (10_state.md R36). -/
theorem exec_port_cix {i : Instr} {s t : State} (h : exec i s = .next t) : t.port = s.port ∧ t.cix = s.cix := by
  obtain ⟨-, rfl⟩ | ⟨-, -, habs⟩ | ⟨-, -, u, hpad, rfl⟩ | ⟨_, w, -, rfl⟩ := exec_next h
  case inl => exact ⟨rfl, rfl⟩
  case inr.inl =>
    obtain ⟨-, rfl⟩ := absorb_eq_some habs
    obtain ⟨-, -, hcix, hport, -⟩ := foldl_absorbByte_frame (payload i) s
    exact ⟨hport, hcix⟩
  case inr.inr.inl =>
    obtain ⟨-, hcix, hport, -⟩ := padMessage_frame hpad
    exact ⟨hport, hcix⟩
  case inr.inr.inr => exact ⟨rfl, rfl⟩

/-- DG has one writer, FINALIZE (10_state.md R30). -/
theorem exec_dg {i : Instr} {s t : State} (h : exec i s = .next t) (hi : i ≠ .finalize) : t.dg = s.dg := by
  obtain ⟨-, rfl⟩ | ⟨-, -, habs⟩ | ⟨rfl, -⟩ | ⟨_, w, -, rfl⟩ := exec_next h
  case inl => rfl
  case inr.inl =>
    obtain ⟨-, rfl⟩ := absorb_eq_some habs
    obtain ⟨-, hdg, -⟩ := foldl_absorbByte_frame (payload i) s
    exact hdg
  case inr.inr.inl => exact absurd rfl hi
  case inr.inr.inr => rfl

/-- The response stream has one writer, READ, of one word (20_memory.md R51). -/
theorem exec_resp {i : Instr} {s t : State} (h : exec i s = .next t) :
    (∃ reg w, i = .read reg ∧ t.resp = s.resp ++ [w]) ∨ ((∀ reg, i ≠ .read reg) ∧ t.resp = s.resp) := by
  obtain ⟨rfl, rfl⟩ | ⟨hi, -, habs⟩ | ⟨rfl, -, u, hpad, rfl⟩ | ⟨reg, w, rfl, rfl⟩ := exec_next h
  case inl => exact .inr ⟨nofun, rfl⟩
  case inr.inl =>
    obtain ⟨-, rfl⟩ := absorb_eq_some habs
    obtain ⟨-, -, -, -, hresp⟩ := foldl_absorbByte_frame (payload i) s
    refine .inr ⟨?_, hresp⟩
    rintro reg rfl
    cases hi
  case inr.inr.inl =>
    obtain ⟨-, -, -, hresp⟩ := padMessage_frame hpad
    exact .inr ⟨nofun, hresp⟩
  case inr.inr.inr => exact .inl ⟨reg, w, rfl, rfl⟩

/-- Settles O47: the writers of DG and of the response stream, and the frame of every command. -/
theorem digestAndResponsesHaveOneWriter : Obligations.DigestAndResponsesHaveOneWriter := by
  unfold Obligations.DigestAndResponsesHaveOneWriter
  exact fun _ _ _ h => ⟨exec_dg h, exec_resp h, exec_port_cix h⟩

/-- Settles O48: the step takes the word from the port and counts it, and the command touches neither. -/
theorem commandIndexCountsCommands : Obligations.CommandIndexCountsCommands := by
  unfold Obligations.CommandIndexCountsCommands
  refine ⟨rfl, fun s t h w rest hport => ?_⟩
  obtain ⟨i, u, -, hexec, rfl⟩ := step_command_next hport h
  obtain ⟨huport, hucix⟩ := exec_port_cix hexec
  exact ⟨congrArg (· + 1) hucix, huport⟩

/-! ### The step -/

/-- Settles O5: with a word that decodes, the step is `complete (exec i …)` on the state without the word. -/
theorem stepRunsTheDecodedCommand : Obligations.StepRunsTheDecodedCommand := by
  unfold Obligations.StepRunsTheDecodedCommand
  intro s w rest i hport hdec
  have hstep : step s = complete (exec i { s with port := rest }) := by
    rw [step_command hport, runCommand_ok hdec]
    rfl
  refine ⟨fun t ht => ?_, fun f hf => ?_, exec_ne_refused i _⟩
  · rw [hstep, ht]
    rfl
  · rw [hstep, hf]
    rfl

/-- Settles O8: the step on a reset input is `hardwareReset` on the state without that input. -/
theorem hardwareResetWritesPhaseOnly : Obligations.HardwareResetWritesPhaseOnly := by
  unfold Obligations.HardwareResetWritesPhaseOnly
  exact ⟨fun _ _ hport => step_reset hport, rfl, rfl, rfl, by decide⟩

end Sys2Proof.Machine

/-! PROOFS. Further inputs behind the oldest change no step, so a fault ends a run whatever is pending; an empty port; INIT
after INIT. -/

namespace Sys2Proof.Machine

/-! ### The step and the inputs behind the oldest -/

theorem complete_outcomeWithPort (p : List HostInput) (o : Host.Outcome State Fault Refusal) :
    complete (outcomeWithPort p o) = outcomeWithPort p (complete o) := by
  cases o <;> rfl

theorem runCommand_withPort (w : Word) (s : State) (p : List HostInput) :
    runCommand w (s.withPort p) = outcomeWithPort p (runCommand w s) := by
  cases hdec : decode w with
  | error e =>
    rw [runCommand_error hdec, runCommand_error hdec]
    rfl
  | ok i => rw [runCommand_ok hdec, runCommand_ok hdec, exec_withPort, complete_outcomeWithPort]

/-- The step depends on the oldest input alone: with other inputs behind it, it does the same and leaves those pending. -/
theorem step_withPort_cons {s : State} {x : HostInput} {rest : List HostInput} (hport : s.port = x :: rest)
    (rest' : List HostInput) : step (s.withPort (x :: rest')) = outcomeWithPort rest' (step s) := by
  cases x with
  | reset =>
    rw [step_reset hport, step_reset (State.withPort_port _ s)]
    rfl
  | command w =>
    rw [step_command hport, step_command (State.withPort_port _ s), ← runCommand_withPort]
    rfl

theorem step_fault_port {s : State} {f : Fault} (h : step s = .fault f) :
    ∃ w rest, s.port = .command w :: rest := by
  match hport : s.port with
  | [] => cases (step_nil hport).symm.trans h
  | .reset :: rest => cases (step_reset hport).symm.trans h
  | .command w :: rest => exact ⟨w, rest, rfl⟩

/-- A step that goes on consumes the oldest input and no other (20_memory.md R50). -/
theorem step_next_port {s t : State} (h : step s = .next t) : t.port = s.port.tail := by
  obtain ⟨hport, rfl⟩ | ⟨rest, -, rfl⟩ | ⟨w, rest, i, u, -, -, hexec, rfl⟩ := step_next h
  case inl => rw [hport, List.tail_nil]
  case inr.inl => rfl
  case inr.inr => exact (exec_port_cix hexec).1

/-! ### What a run shows -/

theorem observation_of_fault {s : State} {f : Fault} (h : step s = .fault f) : observation s = .faulted f s.resp := by
  obtain ⟨w, rest, hport⟩ := step_fault_port h
  rw [observation, hport, List.length_cons, observe, h]

theorem observation_of_next {s t : State} (h : step s = .next t) : observation s = observation t := by
  have htail := step_next_port h
  cases hport : s.port with
  | nil =>
    cases (step_nil hport).symm.trans h
    rfl
  | cons x rest =>
    rw [hport, List.tail_cons] at htail
    rw [observation, hport, List.length_cons, observe, h, observation, htail]

/-- With further inputs behind, a run shows what it shows from the state that its first step reaches. -/
theorem observation_step_append {s t : State} (h : step s = .next t) (later : List HostInput) :
    observation (s.withPort (s.port ++ later)) = observation (t.withPort (t.port ++ later)) := by
  cases hport : s.port with
  | nil =>
    cases (step_nil hport).symm.trans h
    rw [hport]
  | cons x rest =>
    apply observation_of_next
    rw [List.cons_append, step_withPort_cons hport, h, step_next_port h, hport, List.tail_cons]
    rfl

theorem run_succ_next {M : Host.Core} {k : Nat} {s t : M.State} (h : M.run (k + 1) s = .next t) :
    ∃ u, M.step s = .next u ∧ M.run k u = .next t := by
  unfold Host.Core.run at h
  split at h
  · exact ⟨_, ‹_›, h⟩
  · cases h
  · cases h

/-- The same for any number of steps: `observation_step_append` once per step. -/
theorem observation_run_append {k : Nat} {s t : State} (h : core.run k s = .next t) (later : List HostInput) :
    observation (s.withPort (s.port ++ later)) = observation (t.withPort (t.port ++ later)) := by
  induction k generalizing s with
  | zero =>
    cases h
    rfl
  | succ k ih =>
    obtain ⟨u, hstep, hrun⟩ := run_succ_next h
    exact (observation_step_append hstep later).trans (ih hrun)

/-- The fault of the oldest command is the same with any other inputs behind, and is all that follows. -/
theorem step_fault_withPort_cons {s : State} {x : HostInput} {rest : List HostInput} {f : Fault}
    (hport : s.port = x :: rest) (h : step s = .fault f) (rest' : List HostInput) :
    step (s.withPort (x :: rest')) = .fault f ∧ observation (s.withPort (x :: rest')) = .faulted f s.resp := by
  have hfault : step (s.withPort (x :: rest')) = .fault f := by
    rw [step_withPort_cons hport, h]
    rfl
  exact ⟨hfault, observation_of_fault hfault⟩

/-- Settles O11: a run shows what it shows from any state it reaches, and from one whose step faults that is the fault. -/
theorem faultIsTerminal : Obligations.FaultIsTerminal := by
  unfold Obligations.FaultIsTerminal
  refine ⟨fun s w rest rest' f hport h => step_fault_withPort_cons hport h rest', fun s t f k later hrun h => ?_⟩
  obtain ⟨w, rest, hport⟩ := step_fault_port h
  calc observation (s.withPort (s.port ++ later))
    _ = observation (t.withPort (t.port ++ later)) := observation_run_append hrun later
    _ = observation (t.withPort (.command w :: (rest ++ later))) := by rw [hport, List.cons_append]
    _ = .faulted f t.resp := (step_fault_withPort_cons hport h (rest ++ later)).2

/-! ### An empty port, and INIT after INIT -/

/-- Settles O9: the step's equation for an empty port. -/
theorem engineWithoutInputHoldsItsState : Obligations.EngineWithoutInputHoldsItsState := by
  unfold Obligations.EngineWithoutInputHoldsItsState
  exact fun _ hport => step_nil hport

theorem exec_init (s : State) : exec .init s = .next s.startMessage := rfl

/-- INIT writes constants alone, so writing them again changes nothing (41_init_append.md R110). -/
@[simp] theorem State.startMessage_startMessage (s : State) : s.startMessage.startMessage = s.startMessage := rfl

/-- Settles O14: the only state that INIT leaves is `startMessage`, which writing again does not change. -/
theorem initIsIdempotent : Obligations.InitIsIdempotent := by
  unfold Obligations.InitIsIdempotent
  intro s t h
  cases (exec_init s).symm.trans h
  rw [exec_init, State.startMessage_startMessage]

end Sys2Proof.Machine

/-! PROOFS. The encoding: the fields of an encoded command, the decoder's answer per opcode, and from both that decoding and
encoding invert each other, that the opcode table decides the command, and which words fault. -/

namespace Sys2Proof

open Sys2Proof.Machine

/-! ### Fields of a command word -/

/-- A command word is given by its number (30_encoding.md R70). -/
theorem commandWord_eq_iff {op : BitVec 4} {cnt : BitVec 2} {b0 b1 b2 : Byte} {w : Word} :
    commandWord op cnt b0 b1 b2 = w ↔
      w.toNat = op.toNat * 2 ^ 28 + cnt.toNat * 2 ^ 24 + b0.toNat * 2 ^ 16 + b1.toNat * 2 ^ 8 + b2.toNat := by
  rw [← BitVec.toNat_inj, commandWord_toNat, eq_comm]

/-- OP, RSV and CNT of a command word. -/
theorem head_commandWord (op : BitVec 4) (cnt : BitVec 2) (b0 b1 b2 : Byte) :
    field (commandWord op cnt b0 b1 b2) 28 4 = op.toNat ∧ field (commandWord op cnt b0 b1 b2) 26 2 = 0 ∧
    field (commandWord op cnt b0 b1 b2) 24 2 = cnt.toNat := by
  have hop := op.isLt
  have hcnt := cnt.isLt
  have h0 := b0.isLt
  have h1 := b1.isLt
  have h2 := b2.isLt
  simp only [field, commandWord_toNat]
  omega

/-- The low bits of a command word: [15:0], [7:0], [3:0] and [27:4]. -/
theorem tail_commandWord (op : BitVec 4) (cnt : BitVec 2) (b0 b1 b2 : Byte) :
    field (commandWord op cnt b0 b1 b2) 0 16 = b1.toNat * 2 ^ 8 + b2.toNat ∧
    field (commandWord op cnt b0 b1 b2) 0 8 = b2.toNat ∧
    field (commandWord op cnt b0 b1 b2) 0 4 = b2.toNat % 2 ^ 4 ∧
    field (commandWord op cnt b0 b1 b2) 4 24 =
      cnt.toNat * 2 ^ 20 + b0.toNat * 2 ^ 12 + b1.toNat * 2 ^ 4 + b2.toNat / 2 ^ 4 := by
  have hcnt := cnt.isLt
  have h0 := b0.isLt
  have h1 := b1.isLt
  have h2 := b2.isLt
  simp only [field, commandWord_toNat]
  omega

theorem registerByte_toNat (reg : Nat) : (BitVec.ofNat 8 (reg % 16)).toNat = reg % 16 := by
  rw [BitVec.toNat_ofNat, Nat.mod_eq_of_lt (by omega)]

/-! ### The decoder, one equation per opcode and per CNT -/

section

variable {w : Word}

theorem decode_op_init (hop : field w 28 4 = 1) :
    decode w = if field w 0 28 = 0 then .ok .init else .error .reservedField := by
  rw [decode, hop]
  rfl

theorem decode_op_append (hop : field w 28 4 = 2) : decode w = decodeAppend w := by
  rw [decode, hop]
  rfl

theorem decode_op_finalize (hop : field w 28 4 = 3) :
    decode w = if field w 0 28 = 0 then .ok .finalize else .error .reservedField := by
  rw [decode, hop]
  rfl

theorem decode_op_read (hop : field w 28 4 = 4) :
    decode w = if field w 4 24 = 0 then .ok (.read (field w 0 4)) else .error .reservedField := by
  rw [decode, hop]
  rfl

theorem decode_op_reserved (hop : field w 28 4 = 0 ∨ 5 ≤ field w 28 4) : decode w = .error .reservedOpcode := by
  unfold decode
  split
  case h_5 => rfl
  all_goals omega

theorem decodeAppend_rsv (hrsv : field w 26 2 ≠ 0) : decodeAppend w = .error .reservedField := if_pos hrsv

theorem decodeAppend_cnt0 (hrsv : field w 26 2 = 0) (hcnt : field w 24 2 = 0) :
    decodeAppend w = if field w 0 24 = 0 then .ok .append0 else .error .reservedField := by
  rw [decodeAppend, if_neg (not_not.2 hrsv), hcnt]
  exact ite_not ..

theorem decodeAppend_cnt1 (hrsv : field w 26 2 = 0) (hcnt : field w 24 2 = 1) :
    decodeAppend w = if field w 0 16 = 0 then .ok (.append1 (byteAt w 16)) else .error .reservedField := by
  rw [decodeAppend, if_neg (not_not.2 hrsv), hcnt]
  exact ite_not ..

theorem decodeAppend_cnt2 (hrsv : field w 26 2 = 0) (hcnt : field w 24 2 = 2) :
    decodeAppend w =
      if field w 0 8 = 0 then .ok (.append2 (byteAt w 16) (byteAt w 8)) else .error .reservedField := by
  rw [decodeAppend, if_neg (not_not.2 hrsv), hcnt]
  exact ite_not ..

theorem decodeAppend_cnt3 (hrsv : field w 26 2 = 0) (hcnt : field w 24 2 = 3) :
    decodeAppend w = .ok (.append3 (byteAt w 16) (byteAt w 8) (byteAt w 0)) := by
  rw [decodeAppend, if_neg (not_not.2 hrsv), hcnt]
  rfl


end

/-! ### Encoding and decoding invert each other -/

/-- A field inside a field of zeros is zero. -/
theorem field_eq_zero_of_le {w : Word} {lo len lo' len' : Nat} (h : field w lo len = 0) (hlo : lo ≤ lo')
    (hhi : lo' + len' ≤ lo + len) : field w lo' len' = 0 := by
  apply Nat.eq_of_testBit_eq
  intro j
  have hbit := congrArg (Nat.testBit · (lo' - lo + j)) h
  have hidx : lo' - lo + j + lo = j + lo' := by omega
  simp only [field, Nat.testBit_mod_two_pow, Nat.testBit_div_two_pow, hidx, Nat.zero_testBit, Bool.and_eq_false_iff,
    decide_eq_false_iff_not] at hbit ⊢
  exact hbit.imp_left fun hj => by omega

/-- A word with zero RSV is the command word of its fields. -/
theorem commandWord_of_fields {op : BitVec 4} {cnt : BitVec 2} {b0 b1 b2 : Byte} {w : Word}
    (hop : field w 28 4 = op.toNat) (hrsv : field w 26 2 = 0) (hcnt : field w 24 2 = cnt.toNat)
    (h0 : field w 16 8 = b0.toNat) (h1 : field w 8 8 = b1.toNat) (h2 : field w 0 8 = b2.toNat) :
    commandWord op cnt b0 b1 b2 = w := by
  have hw := w.isLt
  rw [commandWord_eq_iff, ← hop, ← hcnt, ← h0, ← h1, ← h2]
  simp only [field] at hrsv ⊢
  omega

theorem field_eq_byteAt_toNat (w : Word) (lo : Nat) : field w lo 8 = (byteAt w lo).toNat := (byteAt_toNat w lo).symm

/-- A word of OP alone. -/
theorem commandWord_of_op {op : BitVec 4} {w : Word} (hop : field w 28 4 = op.toNat) (hzero : field w 0 28 = 0) :
    commandWord op 0 0 0 0 = w :=
  have hsub {lo len : Nat} (hhi : lo + len ≤ 28) : field w lo len = 0 :=
    field_eq_zero_of_le hzero (Nat.zero_le lo) (by omega)
  commandWord_of_fields hop (hsub (by decide)) (hsub (by decide)) (hsub (by decide)) (hsub (by decide))
    (hsub (by decide))

/-- An accepted word has passed the check of its reserved field. -/
theorem of_guard_eq_ok {c : Prop} [Decidable c] {i j : Instr}
    (h : (if c then .ok j else .error .reservedField : Except DecodeError Instr) = .ok i) : c ∧ j = i := by
  split at h
  case isTrue hc =>
    cases h
    exact ⟨hc, rfl⟩
  case isFalse => cases h

theorem cnt_cases (w : Word) : field w 24 2 = 0 ∨ field w 24 2 = 1 ∨ field w 24 2 = 2 ∨ field w 24 2 = 3 := by
  have hlt := field_lt w 24 2
  omega

theorem op_cases (w : Word) : field w 28 4 = 1 ∨ field w 28 4 = 2 ∨ field w 28 4 = 3 ∨ field w 28 4 = 4 ∨
    field w 28 4 = 0 ∨ 5 ≤ field w 28 4 := by omega

theorem encode_of_decodeAppend {w : Word} {i : Instr} (hop : field w 28 4 = 2) (h : decodeAppend w = .ok i) :
    encode i = w ∧ i.wf = true := by
  by_cases hrsv : field w 26 2 = 0
  case neg => cases (decodeAppend_rsv hrsv).symm.trans h
  have hb0 := field_eq_byteAt_toNat w 16
  have hb1 := field_eq_byteAt_toNat w 8
  obtain hcnt | hcnt | hcnt | hcnt := cnt_cases w
  case inl =>
    rw [decodeAppend_cnt0 hrsv hcnt] at h
    obtain ⟨hzero, rfl⟩ := of_guard_eq_ok h
    exact ⟨commandWord_of_fields hop hrsv hcnt (field_eq_zero_of_le hzero (by decide) (by decide))
      (field_eq_zero_of_le hzero (by decide) (by decide)) (field_eq_zero_of_le hzero (by decide) (by decide)), rfl⟩
  case inr.inl =>
    rw [decodeAppend_cnt1 hrsv hcnt] at h
    obtain ⟨hzero, rfl⟩ := of_guard_eq_ok h
    exact ⟨commandWord_of_fields hop hrsv hcnt hb0 (field_eq_zero_of_le hzero (by decide) (by decide))
      (field_eq_zero_of_le hzero (by decide) (by decide)), rfl⟩
  case inr.inr.inl =>
    rw [decodeAppend_cnt2 hrsv hcnt] at h
    obtain ⟨hzero, rfl⟩ := of_guard_eq_ok h
    exact ⟨commandWord_of_fields hop hrsv hcnt hb0 hb1 hzero, rfl⟩
  case inr.inr.inr =>
    cases (decodeAppend_cnt3 hrsv hcnt).symm.trans h
    exact ⟨commandWord_of_fields hop hrsv hcnt hb0 hb1 (field_eq_byteAt_toNat w 0), rfl⟩

/-- The low nibble of a READ is its register, and nothing else of the word is free. -/
theorem encode_read_of_fields {w : Word} (hop : field w 28 4 = 4) (hzero : field w 4 24 = 0) :
    encode (.read (field w 0 4)) = w := by
  refine commandWord_of_fields hop (field_eq_zero_of_le hzero (by decide) (by decide))
    (field_eq_zero_of_le hzero (by decide) (by decide)) (field_eq_zero_of_le hzero (by decide) (by decide))
    (field_eq_zero_of_le hzero (by decide) (by decide)) ?_
  rw [registerByte_toNat]
  simp only [field] at hzero ⊢
  omega

theorem encode_of_decode {w : Word} {i : Instr} (h : decode w = .ok i) : encode i = w ∧ i.wf = true := by
  obtain hop | hop | hop | hop | hop := op_cases w
  case inl =>
    rw [decode_op_init hop] at h
    obtain ⟨hzero, rfl⟩ := of_guard_eq_ok h
    exact ⟨commandWord_of_op hop hzero, rfl⟩
  case inr.inl => exact encode_of_decodeAppend hop (decode_op_append hop ▸ h)
  case inr.inr.inl =>
    rw [decode_op_finalize hop] at h
    obtain ⟨hzero, rfl⟩ := of_guard_eq_ok h
    exact ⟨commandWord_of_op hop hzero, rfl⟩
  case inr.inr.inr.inl =>
    rw [decode_op_read hop] at h
    obtain ⟨hzero, rfl⟩ := of_guard_eq_ok h
    exact ⟨encode_read_of_fields hop hzero, decide_eq_true (field_lt w 0 4)⟩
  case inr.inr.inr.inr => cases (decode_op_reserved hop).symm.trans h

theorem decode_encode_append {i : Instr} (hi : isAppend i = true) : decode (encode i) = .ok i := by
  cases i with
  | append0 => rfl
  | append1 b0 =>
    obtain ⟨hop, hrsv, hcnt⟩ := head_commandWord 2 1 b0 0 0
    obtain ⟨hlow, -⟩ := tail_commandWord 2 1 b0 0 0
    have hzero : field (commandWord 2 1 b0 0 0) 0 16 = 0 := hlow
    obtain ⟨-, hb0, -⟩ := byteAt_commandWord 2 1 b0 0 0
    rw [encode, decode_op_append hop, decodeAppend_cnt1 hrsv hcnt, if_pos hzero, hb0]
  | append2 b0 b1 =>
    obtain ⟨hop, hrsv, hcnt⟩ := head_commandWord 2 2 b0 b1 0
    obtain ⟨-, hlow, -⟩ := tail_commandWord 2 2 b0 b1 0
    have hzero : field (commandWord 2 2 b0 b1 0) 0 8 = 0 := hlow
    obtain ⟨-, hb0, hb1, -⟩ := byteAt_commandWord 2 2 b0 b1 0
    rw [encode, decode_op_append hop, decodeAppend_cnt2 hrsv hcnt, if_pos hzero, hb0, hb1]
  | append3 b0 b1 b2 =>
    obtain ⟨hop, hrsv, hcnt⟩ := head_commandWord 2 3 b0 b1 b2
    obtain ⟨-, hb0, hb1, hb2⟩ := byteAt_commandWord 2 3 b0 b1 b2
    rw [encode, decode_op_append hop, decodeAppend_cnt3 hrsv hcnt, hb0, hb1, hb2]
  | _ => cases hi

theorem decode_encode_read {reg : Nat} (hreg : reg < 16) : decode (encode (.read reg)) = .ok (.read reg) := by
  obtain ⟨hop, -⟩ := head_commandWord 4 0 0 0 (BitVec.ofNat 8 (reg % 16))
  obtain ⟨-, -, hlow, hhigh⟩ := tail_commandWord 4 0 0 0 (BitVec.ofNat 8 (reg % 16))
  rw [registerByte_toNat] at hlow hhigh
  have hzero : field (encode (.read reg)) 4 24 = 0 := hhigh.trans (by simp)
  have hregister : field (encode (.read reg)) 0 4 = reg := hlow.trans (by omega)
  have hread : field (encode (.read reg)) 28 4 = 4 := hop
  rw [decode_op_read hread, if_pos hzero, hregister]

/-- Settles O1: the fields of the encoded word are the operands, and its reserved fields are zero. -/
theorem decodeOfEncodeIsTheCommand : Obligations.DecodeOfEncodeIsTheCommand := by
  unfold Obligations.DecodeOfEncodeIsTheCommand
  intro i hwf
  by_cases happend : isAppend i = true
  case pos => exact decode_encode_append happend
  case neg =>
    cases i with
    | init => rfl
    | finalize => rfl
    | read reg => exact decode_encode_read (of_decide_eq_true hwf)
    | _ => exact absurd rfl happend

/-- Settles O2: a word that the decoder accepts has zero reserved fields, so it is the command word of its fields. -/
theorem encodeOfDecodeIsTheWord : Obligations.EncodeOfDecodeIsTheWord := by
  unfold Obligations.EncodeOfDecodeIsTheWord
  exact fun _ _ => encode_of_decode

/-! ### The opcode table -/

theorem row_mem_opcodeTable (i : Instr) : i.row ∈ opcodeTable := by
  cases i <;> simp [opcodeTable, Instr.row]

theorem encode_isRowOf : ∀ i : Instr, i.row.isRowOf (encode i) = true
  | .init => Laws.EncodingFitsRow.init
  | .append0 => Laws.EncodingFitsRow.append0
  | .append1 b0 => Laws.EncodingFitsRow.append1 b0
  | .append2 b0 b1 => Laws.EncodingFitsRow.append2 b0 b1
  | .append3 b0 b1 b2 => Laws.EncodingFitsRow.append3 b0 b1 b2
  | .finalize => Laws.EncodingFitsRow.finalize
  | .read reg => Laws.EncodingFitsRow.read reg

theorem row_of_decode {w : Word} {i : Instr} (h : decode w = .ok i) : i.row ∈ opcodeTable ∧ i.row.isRowOf w = true := by
  obtain ⟨rfl, -⟩ := encode_of_decode h
  exact ⟨row_mem_opcodeTable i, encode_isRowOf i⟩

theorem commandWord_of_bytes {op : BitVec 4} {cnt : BitVec 2} {b0 b1 b2 : Byte} {w : Word}
    (hhead : byteAt w 24 = op ++ 0#2 ++ cnt) (h0 : byteAt w 16 = b0) (h1 : byteAt w 8 = b1) (h2 : byteAt w 0 = b2) :
    commandWord op cnt b0 b1 b2 = w := by
  rw [word_eq_be32 w, hhead, h0, h1, h2]
  rfl

/-- A byte under a mask byte of ones. -/
theorem byte_of_and_full {b m v v' : Byte} (h : b &&& m = v) (hm : m = 0xFF#8) (hv : v = v') : b = v' := by
  have hones : (0xFF#8 : Byte) = BitVec.allOnes 8 := rfl
  rw [← hv, ← h, hm, hones, BitVec.and_allOnes]

/-- A byte with a zero high nibble is a register index. -/
theorem byte_lt_of_and_high {b m v : Byte} (h : b &&& m = v) (hm : m = 0xF0#8) (hv : v = 0#8) : b.toNat < 16 := by
  have hall : ∀ b : Byte, b &&& 0xF0#8 = 0#8 → b.toNat < 16 := by decide
  subst hm hv
  exact hall b h

/-- A row without operands is one word. -/
theorem eq_value_of_isRowOf {r : OpcodeRow} {w : Word} (hmask : r.mask = BitVec.allOnes 32) (h : r.isRowOf w = true) :
    w = r.value := by
  rwa [OpcodeRow.isRowOf, beq_iff_eq, hmask, BitVec.and_allOnes] at h

/-- A word that a row matches is an encoding of a command of the row: the mask fixes all but the operand bytes. -/
theorem exists_encode_of_isRowOf {r : OpcodeRow} (hr : r ∈ opcodeTable) {w : Word} (h : r.isRowOf w = true) :
    ∃ i : Instr, i.wf = true ∧ i.row = r ∧ encode i = w := by
  obtain ⟨h3, h2, h1, h0⟩ := (OpcodeRow.isRowOf_iff r w).1 h
  simp only [opcodeTable, List.map_cons, List.map_nil, List.mem_cons, List.not_mem_nil, or_false] at hr
  obtain rfl | rfl | rfl | rfl | rfl | rfl | rfl := hr
  · exact ⟨.init, rfl, rfl, (eq_value_of_isRowOf rfl h).symm⟩
  · exact ⟨.append0, rfl, rfl, (eq_value_of_isRowOf rfl h).symm⟩
  · exact ⟨.append1 (byteAt w 16), rfl, rfl, commandWord_of_bytes (byte_of_and_full h3 (by decide) (by decide)) rfl
      (byte_of_and_full h1 (by decide) (by decide)) (byte_of_and_full h0 (by decide) (by decide))⟩
  · exact ⟨.append2 (byteAt w 16) (byteAt w 8), rfl, rfl,
      commandWord_of_bytes (byte_of_and_full h3 (by decide) (by decide)) rfl rfl
        (byte_of_and_full h0 (by decide) (by decide))⟩
  · exact ⟨.append3 (byteAt w 16) (byteAt w 8) (byteAt w 0), rfl, rfl,
      commandWord_of_bytes (byte_of_and_full h3 (by decide) (by decide)) rfl rfl rfl⟩
  · exact ⟨.finalize, rfl, rfl, (eq_value_of_isRowOf rfl h).symm⟩
  · have hreg : (byteAt w 0).toNat < 16 := byte_lt_of_and_high h0 (by decide) (by decide)
    have hbyte : byteAt w 0 = BitVec.ofNat 8 ((byteAt w 0).toNat % 16) := by
      rw [Nat.mod_eq_of_lt hreg, BitVec.ofNat_toNat, BitVec.setWidth_eq]
    exact ⟨.read (byteAt w 0).toNat, decide_eq_true hreg, rfl,
      commandWord_of_bytes (byte_of_and_full h3 (by decide) (by decide)) (byte_of_and_full h2 (by decide) (by decide))
        (byte_of_and_full h1 (by decide) (by decide)) hbyte⟩

theorem decode_of_isRowOf {r : OpcodeRow} (hr : r ∈ opcodeTable) {w : Word} (h : r.isRowOf w = true) :
    ∃ i, decode w = .ok i ∧ i.row = r := by
  obtain ⟨i, hwf, hrow, rfl⟩ := exists_encode_of_isRowOf hr h
  exact ⟨i, decodeOfEncodeIsTheCommand i hwf, hrow⟩

/-- The guard of a reserved field never answers that the opcode is reserved. -/
theorem guard_ne_reservedOpcode (c : Prop) [Decidable c] (i : Instr) :
    (if c then .ok i else .error .reservedField : Except DecodeError Instr) ≠ .error .reservedOpcode := by
  split <;> nofun

theorem decodeAppend_ne_reservedOpcode (w : Word) : decodeAppend w ≠ .error .reservedOpcode := by
  by_cases hrsv : field w 26 2 = 0
  case neg =>
    rw [decodeAppend_rsv hrsv]
    nofun
  obtain hcnt | hcnt | hcnt | hcnt := cnt_cases w
  · rw [decodeAppend_cnt0 hrsv hcnt]
    exact guard_ne_reservedOpcode _ _
  · rw [decodeAppend_cnt1 hrsv hcnt]
    exact guard_ne_reservedOpcode _ _
  · rw [decodeAppend_cnt2 hrsv hcnt]
    exact guard_ne_reservedOpcode _ _
  · rw [decodeAppend_cnt3 hrsv hcnt]
    nofun

theorem decode_ne_reservedOpcode {w : Word} (hop : 1 ≤ field w 28 4 ∧ field w 28 4 ≤ 4) :
    decode w ≠ .error .reservedOpcode := by
  obtain h | h | h | h | h := op_cases w
  · rw [decode_op_init h]
    exact guard_ne_reservedOpcode _ _
  · rw [decode_op_append h]
    exact decodeAppend_ne_reservedOpcode w
  · rw [decode_op_finalize h]
    exact guard_ne_reservedOpcode _ _
  · rw [decode_op_read h]
    exact guard_ne_reservedOpcode _ _
  · omega

/-- Settles O3: the decoded command encodes to the word, and the row of a command fits its encoding; a word in a row is an
encoding of one of its commands, and OP alone tells the two errors apart. -/
theorem opcodeTableDecidesTheCommand : Obligations.OpcodeTableDecidesTheCommand := by
  unfold Obligations.OpcodeTableDecidesTheCommand
  refine ⟨rfl, fun w i => row_of_decode, fun w r hr => decode_of_isRowOf hr, ?unique, ?unmatched⟩
  case unique =>
    intro w r hr r' hr' h h'
    obtain ⟨i, hi, rfl⟩ := decode_of_isRowOf hr h
    obtain ⟨j, hj, rfl⟩ := decode_of_isRowOf hr' h'
    cases hi.symm.trans hj
    rfl
  case unmatched =>
    intro w hnone
    by_cases hop : 1 ≤ field w 28 4 ∧ field w 28 4 ≤ 4
    case neg => exact .inl ⟨decode_op_reserved (by omega), hop⟩
    case pos =>
      obtain ⟨i, hok⟩ | herr | herr := decode_cases w
      · obtain ⟨hmem, hrow⟩ := row_of_decode hok
        cases (hnone _ hmem).symm.trans hrow
      · exact absurd herr (decode_ne_reservedOpcode hop)
      · exact .inr ⟨herr, hop⟩

/-! ### Words that are no command -/

/-- A nonzero reserved field, whatever the opcode (30_encoding.md R78). -/
theorem decode_reservedField {w : Word}
    (h : (field w 28 4 = 1 ∧ field w 0 28 ≠ 0) ∨ (field w 28 4 = 3 ∧ field w 0 28 ≠ 0) ∨
      (field w 28 4 = 4 ∧ field w 4 24 ≠ 0) ∨
      (field w 28 4 = 2 ∧ (field w 26 2 ≠ 0 ∨ (field w 24 2 = 0 ∧ field w 0 24 ≠ 0) ∨
        (field w 24 2 = 1 ∧ field w 0 16 ≠ 0) ∨ (field w 24 2 = 2 ∧ field w 0 8 ≠ 0)))) :
    decode w = .error .reservedField := by
  obtain ⟨hop, hne⟩ | ⟨hop, hne⟩ | ⟨hop, hne⟩ | ⟨hop, happend⟩ := h
  · rw [decode_op_init hop, if_neg hne]
  · rw [decode_op_finalize hop, if_neg hne]
  · rw [decode_op_read hop, if_neg hne]
  · rw [decode_op_append hop]
    by_cases hrsv : field w 26 2 = 0
    case neg => exact decodeAppend_rsv hrsv
    obtain hrsv' | ⟨hcnt, hne⟩ | ⟨hcnt, hne⟩ | ⟨hcnt, hne⟩ := happend
    · exact absurd hrsv hrsv'
    · rw [decodeAppend_cnt0 hrsv hcnt, if_neg hne]
    · rw [decodeAppend_cnt1 hrsv hcnt, if_neg hne]
    · rw [decodeAppend_cnt2 hrsv hcnt, if_neg hne]

/-- A word that is no command faults before PHASE or a register is looked at (60_exceptions.md R183). -/
theorem step_of_decode_error {s : State} {w : Word} {rest : List HostInput} {e : DecodeError}
    (hport : s.port = .command w :: rest) (hdec : decode w = .error e) : step s = .fault (decodeFault e s.cix w) := by
  rw [step_command hport, runCommand_error hdec]
  rfl

/-- Settles O7: the decoder rejects the word, and the step faults with its kind. -/
theorem reservedFieldFaults : Obligations.ReservedFieldFaults := by
  unfold Obligations.ReservedFieldFaults
  exact fun _ _ _ hport h => step_of_decode_error hport (decode_reservedField h)

/-- Settles O6: the same for a reserved opcode. -/
theorem reservedOpcodeFaults : Obligations.ReservedOpcodeFaults := by
  unfold Obligations.ReservedOpcodeFaults
  exact fun _ _ _ hport hop => step_of_decode_error hport (decode_op_reserved hop)

/-- Settles O4: closed words, each decoded by evaluation. -/
theorem wordsOfTheSpecDecode : Obligations.WordsOfTheSpecDecode := by
  unfold Obligations.WordsOfTheSpecDecode
  decide

end Sys2Proof

/-! PROOFS. The compression the engine runs is the shift-register compression on the 80-word schedule: the circular buffer
holds the schedule's last 16 words, and a round renames the working registers. -/

namespace Sys2Proof.Machine

/-! ### The circular buffer -/

@[simp] theorem roundStep_ws (t : Nat) (d : Datapath) : (roundStep t d).ws = if 16 ≤ t then expand t d.ws else d.ws := rfl

@[simp] theorem roundStep_wr (t : Nat) (d : Datapath) :
    (roundStep t d).wr = oneRound t (slot (roundStep t d).ws t) d.wr := rfl

theorem slot_loadSchedule (blk : Vector Byte 64) {t : Nat} (ht : t < 16) :
    slot (loadSchedule blk) t = Reference.scheduleWord blk t := by
  rw [scheduleWord_eq, dif_pos ht]
  simp [slot, loadSchedule, Nat.mod_eq_of_lt ht]

theorem slot_expand_of_ne {ws : Vector Word 16} {t u : Nat} (h : u % 16 ≠ t % 16) : slot (expand t ws) u = slot ws u :=
  slot_set_ne ws t u _ h

/-- `ws` holds the words of the schedule from round `t - 16` on, and at least the first 16. -/
def HoldsSchedule (blk : Vector Byte 64) (t : Nat) (ws : Vector Word 16) : Prop :=
  ∀ u, t ≤ u + 16 → u < max t 16 → slot ws u = Reference.scheduleWord blk u

/-- expand(t) writes W[t] over W[t - 16], the oldest word, which no later round needs. -/
theorem HoldsSchedule.expand {blk : Vector Byte 64} {t : Nat} {ws : Vector Word 16} (ht : 16 ≤ t)
    (h : HoldsSchedule blk t ws) : HoldsSchedule blk (t + 1) (expand t ws) := by
  intro u hlo hhi
  by_cases hu : u = t
  case pos =>
    subst hu
    have hoverwritten : slot ws u = slot ws (u - 16) := by
      have hmod : u % 16 = (u - 16) % 16 := by omega
      simp only [slot, hmod]
    rw [Machine.expand, slot_set_same _ _ _ _ rfl, scheduleWord_eq, dif_neg (by omega), hoverwritten,
      h _ (by omega) (by omega), h _ (by omega) (by omega), h _ (by omega) (by omega), h _ (by omega) (by omega)]
  case neg =>
    rw [slot_expand_of_ne (by omega)]
    exact h u (by omega) (by omega)

theorem runRounds_holdsSchedule (h : Vector Word 5) (blk : Vector Byte 64) (n : Nat) :
    HoldsSchedule blk n (runRounds n (.start h blk)).ws := by
  induction n with
  | zero => exact fun u _ hu => slot_loadSchedule blk (by simpa using hu)
  | succ n ih =>
    rw [runRounds, roundStep_ws]
    split
    case isTrue hn => exact ih.expand hn
    case isFalse hn => exact fun u _ hu => ih u (by omega) (by omega)

/-- Round `t` reads W[t] (43_compression.md R152, R153). -/
theorem slot_runRounds (h : Vector Word 5) (blk : Vector Byte 64) (t : Nat) :
    slot (runRounds (t + 1) (.start h blk)).ws t = Reference.scheduleWord blk t :=
  runRounds_holdsSchedule h blk (t + 1) t (by omega) (by omega)

/-! ### The rounds -/

theorem role_succ (j t : Nat) : role (j + 1) (t + 1) = role j t := by
  ext
  rw [role_val, role_val]
  omega

/-- Role a of the next round is role e of this one. -/
theorem role_zero_succ (t : Nat) : role 0 (t + 1) = role 4 t := by
  ext
  rw [role_val, role_val]
  omega

theorem role_ne {j k : Nat} (t : Nat) (hj : j < 5) (hk : k < 5) (hjk : j ≠ k) : (role j t).val ≠ (role k t).val := by
  rw [role_val, role_val]
  omega

/-- A round writes the register of role e with the sum and the register of role b with its rotation. -/
theorem oneRound_role (t : Nat) (wt : Word) (wr : Vector Word 5) {j : Nat} (hj : j < 5) :
    (oneRound t wt wr)[role j t] =
      if j = 1 then rotl32 wr[role 1 t] 30
      else if j = 4 then
        wr[role 4 t] + stageFn t wr[role 1 t] wr[role 2 t] wr[role 3 t] + wt + stageConst t + rotl32 wr[role 0 t] 5
      else wr[role j t] := by
  simp only [oneRound, Fin.getElem_fin]
  split
  case isTrue h1 => subst h1; exact Vector.getElem_set_self _
  case isFalse h1 =>
    rw [Vector.getElem_set_ne _ _ (role_ne t (by decide) hj (Ne.symm h1))]
    split
    case isTrue h4 => subst h4; exact Vector.getElem_set_self _
    case isFalse h4 => rw [Vector.getElem_set_ne _ _ (role_ne t (by decide) hj (Ne.symm h4))]

/-- A round in the rotating-role form is a round of the shift register (43_compression.md R157). -/
theorem rolesOf_oneRound (t : Nat) (wt : Word) (wr : Vector Word 5) :
    Reference.rolesOf (t + 1) (oneRound t wt wr) = Reference.shiftRound t wt (Reference.rolesOf t wr) := by
  have hb : role 1 (t + 1) = role 0 t := role_succ 0 t
  have hc : role 2 (t + 1) = role 1 t := role_succ 1 t
  have hd : role 3 (t + 1) = role 2 t := role_succ 2 t
  have he : role 4 (t + 1) = role 3 t := role_succ 3 t
  simp only [Reference.rolesOf, Reference.shiftRound, role_zero_succ, hb, hc, hd, he]
  rw [oneRound_role t wt wr (j := 4) (by decide), oneRound_role t wt wr (j := 0) (by decide),
    oneRound_role t wt wr (j := 1) (by decide), oneRound_role t wt wr (j := 2) (by decide),
    oneRound_role t wt wr (j := 3) (by decide)]
  simp only [Reference.Roles.mk.injEq]
  refine ⟨?_, rfl, rfl, rfl, rfl⟩
  simp
  ring

theorem rolesOf_runRounds (h : Vector Word 5) (blk : Vector Byte 64) (n : Nat) :
    Reference.rolesOf n (runRounds n (.start h blk)).wr =
      Reference.shiftRounds blk n ⟨h[0], h[1], h[2], h[3], h[4]⟩ := by
  induction n with
  | zero => rfl
  | succ n ih => 
    rw [runRounds, roundStep_wr, rolesOf_oneRound, ih, Reference.shiftRounds]
    congr 1
    exact slot_runRounds h blk n

/-- After 80 rounds every register has the role of its index again. -/
theorem accumulate_of_rolesOf {h wr : Vector Word 5} {r : Reference.Roles}
    (hr : Reference.rolesOf Config.rounds wr = r) :
    accumulate h wr = #v[h[0] + r.a, h[1] + r.b, h[2] + r.c, h[3] + r.d, h[4] + r.e] := by
  subst hr
  ext k hk : 1
  interval_cases k <;> simp [accumulate, Reference.rolesOf, role]

/-- The engine's compression is the reference's (43_compression.md R157 to R159). -/
theorem compressed_eq_reference (h : Vector Word 5) (blk : Vector Byte 64) :
    compressed h blk = Reference.compressed h blk :=
  accumulate_of_rolesOf (rolesOf_runRounds h blk Config.rounds)

end Sys2Proof.Machine

/-! PROOFS. What a sequence of bytes leaves in H and in the valid bytes, and how FINALIZE's padding runs: an engine that has
absorbed a message absorbs the rest of the padded message. -/

namespace Sys2Proof.Machine

/-! ### Absorbing -/

theorem length_validBytes (s : State) : s.validBytes.length = s.fill := Memory.length_firstBytes _ _

theorem fill_foldl_absorbByte (p : List Byte) (s : State) : (p.foldl absorbByte s).fill = (s.fill + p.length) % 64 := by
  induction p generalizing s with
  | nil => exact (Nat.mod_eq_of_lt (fill_lt s)).symm
  | cons b p ih =>
    rw [List.foldl_cons, ih, absorbByte_fill, List.length_cons]
    omega

/-- H chains over the blocks that the valid bytes and `p` complete, in stream order, and the valid bytes are what is left
(41_init_append.md R120), also where the counter wraps. -/
theorem foldl_absorbByte_chain (p : List Byte) (s : State) :
    (p.foldl absorbByte s).h = Reference.chainFrom s.h (s.validBytes ++ p) ((s.fill + p.length) / 64) ∧
    (p.foldl absorbByte s).validBytes = (s.validBytes ++ p).drop (64 * ((s.fill + p.length) / 64)) := by
  induction p using List.reverseRecOn with
  | nil =>
    have hnone : (s.fill + ([] : List Byte).length) / 64 = 0 := Nat.div_eq_of_lt (fill_lt s)
    rw [hnone, List.append_nil]
    exact ⟨rfl, rfl⟩
  | append_singleton p b ih =>
    obtain ⟨hh, hvalid⟩ := ih
    have hlen : (s.validBytes ++ p).length = s.fill + p.length := by rw [List.length_append, length_validBytes]
    have hblocks : 64 * ((s.fill + p.length) / 64) ≤ (s.validBytes ++ p).length := by omega
    simp only [List.foldl_append, List.foldl_cons, List.foldl_nil, absorbByte_h, absorbByte_validBytes,
      fill_foldl_absorbByte, hh, hvalid, List.length_append, List.length_singleton, ← List.append_assoc,
      ← List.drop_append_of_le_length hblocks]
    split
    case isTrue h63 =>
      have hmore : (s.fill + (p.length + 1)) / 64 = (s.fill + p.length) / 64 + 1 := by omega
      rw [hmore, Reference.chainFrom, chainFrom_append _ hblocks, blockAt_drop, compressed_eq_reference, Nat.add_zero]
      refine ⟨rfl, (List.drop_eq_nil_of_le ?_).symm⟩
      rw [List.length_append, hlen, List.length_singleton]
      omega
    case isFalse h63 =>
      have hsame : (s.fill + (p.length + 1)) / 64 = (s.fill + p.length) / 64 := by omega
      rw [hsame, chainFrom_append _ hblocks]
      exact ⟨rfl, rfl⟩

/-- Chaining over the first `k` blocks and then over the next `j`. -/
theorem chainFrom_drop (h : Vector Word 5) (bs : List Byte) (k j : Nat) :
    Reference.chainFrom (Reference.chainFrom h bs k) (bs.drop (64 * k)) j = Reference.chainFrom h bs (k + j) := by
  induction j with
  | zero => rfl
  | succ j ih => rw [Reference.chainFrom, ih, blockAt_drop, ← Nat.add_assoc, Reference.chainFrom]

theorem startMessage_absorbed (s : State) : s.startMessage.Absorbed [] where
  count := rfl
  blocks := rfl
  valid := by simp [State.validBytes, State.fill]

theorem State.Absorbed.fill_eq {m : List Byte} {s : State} (habs : s.Absorbed m) : s.fill = m.length % 64 := by
  rw [State.fill, habs.count, Nat.mul_div_cancel_left _ (by decide)]

/-- An engine that has absorbed `m` and takes the bytes `p` has absorbed `m ++ p` (41_init_append.md R119, R121). -/
theorem State.Absorbed.foldl_absorbByte {m : List Byte} {s : State} (habs : s.Absorbed m) {p : List Byte}
    (hfits : 8 * (m ++ p).length < 2 ^ 64) : (p.foldl absorbByte s).Absorbed (m ++ p) := by
  obtain ⟨hh, hvalid⟩ := foldl_absorbByte_chain p s
  rw [List.length_append] at hfits
  have hwhole : 64 * (m.length / 64) ≤ m.length := Nat.mul_div_le ..
  have hblocks : m.length / 64 + (m.length % 64 + p.length) / 64 = (m ++ p).length / 64 := by
    rw [List.length_append]
    omega
  have hcount := habs.count
  rw [habs.fill_eq, habs.valid, ← List.drop_append_of_le_length hwhole] at hh hvalid
  refine ⟨?count, ?blocks, ?valid⟩
  case count =>
    rw [foldl_absorbByte_count p s (by omega), hcount, List.length_append]
    omega
  case blocks =>
    rw [hh, habs.blocks, Reference.chain, ← chainFrom_append p hwhole, chainFrom_drop, hblocks, Reference.chain]
  case valid => rw [hvalid, List.drop_drop, ← Nat.mul_add, hblocks]

/-! ### Padding -/

/-- The zero count makes whole blocks with the 0x80 and the length field, and depends on the length modulo 64 alone
(42_finalize.md R133, R134). -/
theorem zeroCount_spec (n : Nat) :
    Reference.zeroCount n < 64 ∧ (n + 9 + Reference.zeroCount n) % 64 = 0 ∧
    Reference.zeroCount (n % 64) = Reference.zeroCount n := by
  unfold Reference.zeroCount
  omega

theorem length_padded (m : List Byte) : (Reference.padded m).length = m.length + 9 + Reference.zeroCount m.length := by
  simp only [Reference.padded, List.length_append, List.length_singleton, List.length_replicate, length_be64Bytes]
  omega

/-- The zero-byte loop stops at the first `z` bytes that carry the counter to 448 modulo 512. -/
theorem padZeros_of_zeros {z n : Nat} {s : State} (hzn : z < n) (hz : z < 64)
    (hfits : s.bitcnt.toNat + 8 * z < 2 ^ 64) (hdone : (s.bitcnt.toNat + 8 * z) % 512 = 448) :
    padZeros n s = some ((List.replicate z 0x00).foldl absorbByte s) := by
  induction z generalizing n s with
  | zero =>
    obtain ⟨n, rfl⟩ := Nat.exists_eq_add_one.2 hzn
    rw [padZeros, if_pos (by omega)]
    rfl
  | succ z ih =>
    obtain ⟨n, rfl⟩ := Nat.exists_eq_add_one.2 (Nat.lt_of_le_of_lt (Nat.zero_le _) hzn)
    have habsorb : absorb [0x00] s = some (absorbByte s 0x00) := absorb_some (by simp only [List.length_singleton]; omega)
    have hcount := absorb_count habsorb
    rw [List.length_singleton] at hcount
    rw [padZeros, if_neg (by omega), habsorb]
    exact ih (by omega) (by omega) (by omega) (by omega)

/-- FINALIZE's padding, where the padded length fits the counter (42_finalize.md R130 to R134). -/
theorem padMessage_of_fits {s : State} (hbytes : s.bitcnt.toNat % 8 = 0) (hfits : finalCount s < 2 ^ 64) :
    padMessage s = some
      (([0x80] ++ List.replicate (Reference.zeroCount s.fill) 0x00 ++ be64Bytes s.bitcnt).foldl absorbByte s) := by
  obtain ⟨hz, hblocks, -⟩ := zeroCount_spec s.fill
  rw [finalCount] at hfits
  have hfill : s.fill = s.bitcnt.toNat / 8 % 64 := rfl
  have hone : absorb [0x80] s = some (absorbByte s 0x80) := absorb_some (by simp only [List.length_singleton]; omega)
  have hcount := absorb_count hone
  rw [List.length_singleton] at hcount
  have hzeros := padZeros_of_zeros (n := 64) (s := absorbByte s 0x80) hz hz (by omega) (by omega)
  have hcount' := foldl_absorbByte_count (List.replicate (Reference.zeroCount s.fill) 0x00) (absorbByte s 0x80)
    (by rw [List.length_replicate]; omega)
  rw [List.length_replicate] at hcount'
  rw [padMessage_eq_bind, hone, Option.bind_some, hzeros, Option.bind_some,
    absorb_some (by rw [length_be64Bytes]; omega), List.foldl_append, List.foldl_append, List.foldl_cons, List.foldl_nil]

/-- Padding carries an engine that has absorbed `m` to one that has absorbed the padded message (42_finalize.md R137). -/
theorem State.Absorbed.padMessage {m : List Byte} {s : State} (habs : s.Absorbed m) (hfits : Reference.paddedFits m) :
    ∃ t, padMessage s = some t ∧ t.Absorbed (Reference.padded m) := by
  have hcount := habs.count
  obtain ⟨-, -, hmod⟩ := zeroCount_spec m.length
  have hzero : Reference.zeroCount s.fill = Reference.zeroCount m.length := by rw [habs.fill_eq, hmod]
  have hlength : s.bitcnt = BitVec.ofNat 64 (8 * m.length) := by rw [← hcount, BitVec.ofNat_toNat, BitVec.setWidth_eq]
  have hfinal : finalCount s < 2 ^ 64 := by
    have hbound : 8 * (m.length + 9 + Reference.zeroCount m.length) < 2 ^ 64 := hfits
    rw [finalCount, hzero]
    omega
  have hpadded : m ++ ([0x80] ++ List.replicate (Reference.zeroCount s.fill) 0x00 ++ be64Bytes s.bitcnt) =
      Reference.padded m := by
    rw [Reference.padded, hzero, hlength]
    simp only [List.append_assoc]
  refine ⟨_, padMessage_of_fits (by omega) hfinal, ?_⟩
  rw [← hpadded]
  refine habs.foldl_absorbByte ?_
  rw [hpadded, length_padded]
  exact hfits

/-- The digest stored where the padded message is absorbed is the message's (42_finalize.md R135 to R137). -/
theorem State.Absorbed.storeDigest {m : List Byte} {s : State} (habs : s.Absorbed (Reference.padded m)) :
    s.storeDigest.Finished m where
  count := habs.count
  blocks := habs.blocks
  stored := congrArg digestBytes habs.blocks

end Sys2Proof.Machine

/-! PROOFS. Programs at the port: what the run of a sequence of commands is, the pseudo-instructions APPENDS, HASH and
READDIGEST, and the words that HASH and READDIGEST emit. -/

namespace Sys2Proof.Machine

/-! ### APPENDS -/

theorem flatMap_payload_appends (bs : List Byte) : (Assembler.appends bs).flatMap payload = bs := by
  induction bs using Assembler.appends.induct with
  | case1 => rfl
  | case2 b0 => rfl
  | case3 b0 b1 => rfl
  | case4 b0 b1 b2 rest ih =>
    rw [Assembler.appends, List.flatMap_cons, ih]
    rfl

theorem length_appends (bs : List Byte) : (Assembler.appends bs).length = (bs.length + 2) / 3 := by
  induction bs using Assembler.appends.induct with
  | case1 => simp [Assembler.appends]
  | case2 b0 => simp [Assembler.appends]
  | case3 b0 b1 => simp [Assembler.appends]
  | case4 b0 b1 b2 rest ih =>
    simp only [Assembler.appends, List.length_cons, ih]
    omega

/-- The `k`-th command of APPENDS carries the bytes from `3k` on, at most three (30_encoding.md R90). -/
theorem appends_getElem? {bs : List Byte} {k : Nat} {i : Instr} (h : (Assembler.appends bs)[k]? = some i) :
    isAppend i = true ∧ payload i = (bs.drop (3 * k)).take 3 := by
  induction bs using Assembler.appends.induct generalizing k with
  | case1 => cases h
  | case2 b0 =>
    cases k with
    | zero =>
      cases h
      exact ⟨rfl, rfl⟩
    | succ k => cases h
  | case3 b0 b1 =>
    cases k with
    | zero =>
      cases h
      exact ⟨rfl, rfl⟩
    | succ k => cases h
  | case4 b0 b1 b2 rest ih =>
    cases k with
    | zero =>
      cases h
      exact ⟨rfl, rfl⟩
    | succ k => exact ih h

theorem isAppend_of_mem_appends {bs : List Byte} {i : Instr} (h : i ∈ Assembler.appends bs) : isAppend i = true := by
  obtain ⟨_, hk⟩ := List.mem_iff_getElem?.1 h
  exact (appends_getElem? hk).1

/-- Settles O50: by the recursion of `appends`, three bytes at a time. -/
theorem appendsCarriesTheBytesInOrder : Obligations.AppendsCarriesTheBytesInOrder := by
  unfold Obligations.AppendsCarriesTheBytesInOrder
  exact fun bs => ⟨flatMap_payload_appends bs, length_appends bs, fun _ _ => appends_getElem?⟩

/-! ### Runs of commands -/

section

variable {M : Host.Core}

theorem run_succ_of_step {s u : M.State} (h : M.step s = .next u) (n : Nat) : M.run (n + 1) s = M.run n u := by
  rw [Host.Core.run, h]

theorem run_add {n : Nat} {s t : M.State} (h : M.run n s = .next t) (k : Nat) : M.run (n + k) s = M.run k t := by
  induction n generalizing s with
  | zero =>
    cases h
    rw [Nat.zero_add]
  | succ n ih =>
    obtain ⟨u, hstep, hrun⟩ := run_succ_next h
    rw [Nat.succ_add, run_succ_of_step hstep, ih hrun]

end

/-- The commands `is` are the oldest at the port of `s`, and their run ends in `t`, with all of them consumed and counted. -/
structure State.Runs (is : List Instr) (s t : State) : Prop where
  run : core.run is.length s = .next t
  port : s.port = asInputs is ++ t.port
  cix : t.cix = s.cix + is.length

theorem asInputs_append (is js : List Instr) : asInputs (is ++ js) = asInputs is ++ asInputs js := List.map_append

/-- One command whose meaning goes on. -/
theorem State.Runs.of_exec {i : Instr} {s u : State} {rest : List HostInput} (hwf : i.wf = true)
    (hport : s.port = asInputs [i] ++ rest) (hexec : exec i (s.withPort rest) = .next u) :
    s.Runs [i] u.countCommand := by
  obtain ⟨huport, hucix⟩ := exec_port_cix hexec
  have hstep : step s = .next u.countCommand := by
    have holdest : s.port = .command (encode i) :: rest := hport
    rw [step_command holdest, runCommand_ok (decodeOfEncodeIsTheCommand i hwf), hexec]
    rfl
  refine ⟨run_succ_of_step hstep 0, ?port, congrArg (· + 1) hucix⟩
  rw [hport, State.countCommand_port, huport, State.withPort_port]

theorem State.Runs.append {is js : List Instr} {s t u : State} (h : s.Runs is t) (h' : t.Runs js u) :
    s.Runs (is ++ js) u := by
  refine ⟨?run, ?port, ?cix⟩
  case run => rw [List.length_append, run_add h.run, h'.run]
  case port => rw [h.port, h'.port, asInputs_append, List.append_assoc]
  case cix => rw [h'.cix, h.cix, List.length_append, Nat.add_assoc]

/-- What is pending behind the commands that have run. -/
theorem State.Runs.pending {is js : List Instr} {s t : State} {rest : List HostInput} (h : s.Runs is t)
    (hport : s.port = asInputs (is ++ js) ++ rest) : t.port = asInputs js ++ rest := by
  rw [h.port, asInputs_append, List.append_assoc] at hport
  exact List.append_cancel_left hport

/-! ### One message -/

/-- Between INIT and FINALIZE of the message `m`, the words `r` emitted. -/
structure State.Collecting (m : List Byte) (r : List Word) (s : State) : Prop where
  phase : s.phase = .accepting
  message : s.Absorbed m
  resp : s.resp = r

/-- After FINALIZE of the message `m`, the words `r` emitted. -/
structure State.Hashed (m : List Byte) (r : List Word) (s : State) : Prop where
  phase : s.phase = .finalized
  message : s.Finished m
  resp : s.resp = r

section

variable {m : List Byte} {r : List Word} {s : State} {rest : List HostInput}

/-! Neither predicate looks at the port or at the command index. -/

theorem State.Absorbed.countCommand (h : s.Absorbed m) : s.countCommand.Absorbed m := ⟨h.count, h.blocks, h.valid⟩

theorem State.Absorbed.withPort (h : s.Absorbed m) (p : List HostInput) : (s.withPort p).Absorbed m :=
  ⟨h.count, h.blocks, h.valid⟩

theorem State.Finished.countCommand (h : s.Finished m) : s.countCommand.Finished m := ⟨h.count, h.blocks, h.stored⟩

theorem runs_init (hport : s.port = asInputs [.init] ++ rest) : ∃ t, s.Runs [.init] t ∧ t.Collecting [] s.resp :=
  ⟨_, .of_exec rfl hport (exec_init _), rfl, (startMessage_absorbed _).countCommand, rfl⟩

theorem wf_of_isAppend {i : Instr} (hi : isAppend i = true) : i.wf = true := by
  cases i with
  | read reg => cases hi
  | _ => rfl

theorem State.Collecting.runs_append {i : Instr} (hi : isAppend i = true) (hs : s.Collecting m r)
    (hfits : 8 * (m ++ payload i).length < 2 ^ 64) (hport : s.port = asInputs [i] ++ rest) :
    ∃ t, s.Runs [i] t ∧ t.Collecting (m ++ payload i) r := by
  obtain ⟨hphase, habs, hresp⟩ := hs
  have hcount := (habs.withPort rest).count
  rw [List.length_append] at hfits
  have hexec : exec i (s.withPort rest) = .next ((payload i).foldl absorbByte (s.withPort rest)) := by
    rw [exec_append hi, appendPayload, State.withPort_phase, hphase, absorb_some (by omega)]
  obtain ⟨hphase', -, -, -, hresp'⟩ := foldl_absorbByte_frame (payload i) (s.withPort rest)
  refine ⟨_, .of_exec (wf_of_isAppend hi) hport hexec, hphase'.trans hphase, ?_, hresp'.trans hresp⟩
  exact ((habs.withPort rest).foldl_absorbByte (by rwa [List.length_append])).countCommand

/-- Any sequence of APPENDs: their payloads, one after the other. -/
theorem State.Collecting.runs_appends {is : List Instr} (his : ∀ i ∈ is, isAppend i = true) (hs : s.Collecting m r)
    (hfits : 8 * (m ++ is.flatMap payload).length < 2 ^ 64) (hport : s.port = asInputs is ++ rest) :
    ∃ t, s.Runs is t ∧ t.Collecting (m ++ is.flatMap payload) r := by
  induction is generalizing m s with
  | nil => exact ⟨s, ⟨rfl, rfl, rfl⟩, by rwa [List.flatMap_nil, List.append_nil]⟩
  | cons i is ih =>
    rw [List.flatMap_cons, ← List.append_assoc] at hfits ⊢
    obtain ⟨u, hruns, hu⟩ := hs.runs_append (his i List.mem_cons_self)
      (by rw [List.length_append] at hfits; omega) (rest := asInputs is ++ rest) hport
    obtain ⟨t, hruns', ht⟩ := ih (fun j hj => his j (List.mem_cons_of_mem _ hj)) hu hfits (hruns.pending hport)
    exact ⟨t, hruns.append hruns', ht⟩

theorem State.Collecting.runs_finalize (hs : s.Collecting m r) (hfits : Reference.paddedFits m)
    (hport : s.port = asInputs [.finalize] ++ rest) : ∃ t, s.Runs [.finalize] t ∧ t.Hashed m r := by
  obtain ⟨hphase, habs, hresp⟩ := hs
  obtain ⟨u, hpad, hu⟩ := (habs.withPort rest).padMessage hfits
  have hexec : exec .finalize (s.withPort rest) = .next u.storeDigest := by
    rw [exec, execFinalize, State.withPort_phase, hphase, hpad]
  obtain ⟨-, -, -, hresp'⟩ := padMessage_frame hpad
  exact ⟨_, .of_exec rfl hport hexec, rfl, hu.storeDigest.countCommand, hresp'.trans hresp⟩

theorem State.Hashed.runs_read {k : Nat} (hk : k < 5) (hs : s.Hashed m r)
    (hport : s.port = asInputs [.read (k + 1)] ++ rest) :
    ∃ t, s.Runs [.read (k + 1)] t ∧ t.Hashed m (r ++ [(Reference.finalH m)[k]]) := by
  obtain ⟨hphase, hmessage, rfl⟩ := hs
  have hword : digestWord (s.withPort rest).dg ⟨k, hk⟩ = (Reference.finalH m)[k] := by
    rw [State.withPort_dg, hmessage.stored, Reference.digest, digestWord_digestBytes]
  have hexec : exec (.read (k + 1)) (s.withPort rest) =
      .next ((s.withPort rest).emit (Reference.finalH m)[k]) := hword ▸ execRead_digest hk hphase
  exact ⟨_, .of_exec (decide_eq_true (show k + 1 < 16 by omega)) hport hexec, hphase,
    ⟨hmessage.count, hmessage.blocks, hmessage.stored⟩, rfl⟩

/-- Any sequence of READs of DIGEST registers emits their words of the final chaining state. -/
theorem State.Hashed.runs_reads {ks : List (Fin 5)} (hs : s.Hashed m r)
    (hport : s.port = asInputs (ks.map fun k => .read (k.val + 1)) ++ rest) :
    ∃ t, s.Runs (ks.map fun k => .read (k.val + 1)) t ∧ t.Hashed m (r ++ ks.map fun k => (Reference.finalH m)[k]) := by
  induction ks generalizing r s with
  | nil => exact ⟨s, ⟨rfl, rfl, rfl⟩, by rwa [List.map_nil, List.append_nil]⟩
  | cons k ks ih =>
    obtain ⟨u, hruns, hu⟩ := hs.runs_read k.isLt (rest := asInputs (ks.map fun k => .read (k.val + 1)) ++ rest) hport
    obtain ⟨t, hruns', ht⟩ := ih hu (hruns.pending hport)
    rw [List.append_assoc] at ht
    exact ⟨t, hruns.append hruns', ht⟩

theorem toList_eq_map_finRange (v : Vector Word 5) : v.toList = (List.finRange 5).map fun k => v[k] :=
  List.ext_getElem (by simp) fun k _ _ => by simp

/-- READDIGEST (30_encoding.md R91). -/
theorem State.Hashed.runs_readDigest (hs : s.Hashed m r) (hport : s.port = asInputs Assembler.readDigest ++ rest) :
    ∃ t, s.Runs Assembler.readDigest t ∧ t.Hashed m (r ++ (Reference.finalH m).toList) := by
  have hreads : Assembler.readDigest = (List.finRange 5).map fun k => .read (k.val + 1) := rfl
  rw [hreads] at hport ⊢
  rw [toList_eq_map_finRange]
  exact hs.runs_reads hport

end

/-- HASH (30_encoding.md R92), from any state. -/
theorem runs_hash {m : List Byte} {s : State} {rest : List HostInput} (hfits : Reference.paddedFits m)
    (hport : s.port = asInputs (Assembler.hash m) ++ rest) :
    ∃ t, s.Runs (Assembler.hash m) t ∧ t.Hashed m s.resp := by
  have hbound : 8 * (m.length + 9 + Reference.zeroCount m.length) < 2 ^ 64 := hfits
  have hbytes := flatMap_payload_appends m
  rw [Assembler.hash, List.append_assoc] at hport ⊢
  obtain ⟨s1, hruns1, hs1⟩ := runs_init (rest := asInputs (Assembler.appends m ++ [.finalize]) ++ rest) hport
  have hport1 := hruns1.pending hport
  obtain ⟨s2, hruns2, hs2⟩ := hs1.runs_appends (fun i => isAppend_of_mem_appends)
    (by rw [hbytes, List.nil_append]; omega) (rest := asInputs [.finalize] ++ rest)
    (by rw [hport1, asInputs_append, List.append_assoc])
  rw [hbytes, List.nil_append] at hs2
  obtain ⟨t, hruns3, ht⟩ := hs2.runs_finalize hfits (hruns2.pending hport1)
  exact ⟨t, hruns1.append (hruns2.append hruns3), ht⟩

/-- Settles O51: INIT, the APPENDs and FINALIZE leave the digest stored, and the five READs emit its words. -/
theorem hashThenReadDigestReturnsTheDigest : Obligations.HashThenReadDigestReturnsTheDigest := by
  unfold Obligations.HashThenReadDigestReturnsTheDigest
  intro m s rest hfits hport
  obtain ⟨u, hruns, hu⟩ := runs_hash hfits (rest := asInputs Assembler.readDigest ++ rest)
    (by rw [hport, asInputs_append, List.append_assoc])
  obtain ⟨t, hruns', ht⟩ := hu.runs_readDigest (hruns.pending hport)
  have hall := hruns.append hruns'
  exact ⟨t, hall.run, ht.resp, ht.phase, ht.message, hall.cix, List.append_cancel_left (hall.port.symm.trans hport)⟩

end Sys2Proof.Machine

/-! PROOFS. The rotator: both rotations bit by bit, and from the bits alone the laws of 40_rotation.md R104. -/

namespace Sys2Proof.Machine

/-! ### Bits -/

theorem rotAmount_cast (n : Int) : (rotAmount n : Int) = n % 32 :=
  Int.toNat_of_nonneg (Int.emod_nonneg n (by decide))

/-- At amount 0 the library's rotation shifts by the whole width, which adds no bit; elsewhere the two say the same. -/
theorem rotl32_eq_rotateLeft (x : Word) (n : Int) : rotl32 x n = x.rotateLeft (rotAmount n) := by
  rw [BitVec.rotateLeft_def, Nat.mod_eq_of_lt (rotAmount_lt n), rotl32]
  split
  next hzero => rw [hzero, BitVec.shiftLeft_zero, BitVec.ushiftRight_eq_zero (Nat.le_refl 32), BitVec.or_zero]
  next => rfl

theorem rotr32_eq_rotateRight (x : Word) (n : Int) : rotr32 x n = x.rotateRight (rotAmount n) := by
  rw [BitVec.rotateRight_def, Nat.mod_eq_of_lt (rotAmount_lt n), rotr32]
  split
  next hzero => rw [hzero, BitVec.ushiftRight_zero, BitVec.shiftLeft_eq_zero (Nat.le_refl 32), BitVec.or_zero]
  next => rfl

/-- Below the amount the bits come round from the top of the word; from the amount on they move up. -/
theorem getLsbD_rotl32 (x : Word) (n : Int) {i : Nat} (hi : i < 32) :
    (rotl32 x n).getLsbD i = x.getLsbD (((i : Int) - n) % 32).toNat := by
  have hamount := rotAmount_cast n
  rw [rotl32_eq_rotateLeft, BitVec.getLsbD_rotateLeft, Nat.mod_eq_of_lt (rotAmount_lt n)]
  by_cases hround : i < rotAmount n
  · have hfrom : (((i : Int) - n) % 32).toNat = 32 - rotAmount n + i := by omega
    simp [hround, hfrom]
  · have hfrom : (((i : Int) - n) % 32).toNat = i - rotAmount n := by omega
    simp [hround, hfrom, hi]

/-- The same rule in `simp`'s spelling of a bit below the width. -/
@[simp] theorem getElem_rotl32 (x : Word) (n : Int) {i : Nat} (hi : i < 32) :
    (rotl32 x n)[i] = x.getLsbD (((i : Int) - n) % 32).toNat :=
  getLsbD_rotl32 x n hi

/-- Below `32 - m` the bits move down by the amount `m`; above, they come round from the bottom of the word. -/
theorem getLsbD_rotr32 (x : Word) (n : Int) {i : Nat} (hi : i < 32) :
    (rotr32 x n).getLsbD i = x.getLsbD (((i : Int) + n) % 32).toNat := by
  have hamount := rotAmount_cast n
  rw [rotr32_eq_rotateRight, BitVec.getLsbD_rotateRight, Nat.mod_eq_of_lt (rotAmount_lt n)]
  by_cases hdown : i < 32 - rotAmount n
  · have hfrom : (((i : Int) + n) % 32).toNat = rotAmount n + i := by omega
    simp [hdown, hfrom]
  · have hfrom : (((i : Int) + n) % 32).toNat = i - (32 - rotAmount n) := by omega
    simp [hdown, hfrom, hi]

/-- Settles O33: after the reduction of R102 the model's shifts are the library's rotations, whose bits are known. -/
theorem rotationMovesEachBit : Obligations.RotationMovesEachBit := by
  unfold Obligations.RotationMovesEachBit
  exact fun x n _ hi => ⟨getLsbD_rotl32 x n hi, getLsbD_rotr32 x n hi⟩

/-! ### Laws -/

theorem rotl32_eq_rotr32_neg (x : Word) (n : Int) : rotl32 x n = rotr32 x (-n) := by
  refine word_ext fun i hi => ?_
  rw [getLsbD_rotl32 x n hi, getLsbD_rotr32 x (-n) hi, Int.sub_eq_add_neg]

theorem rotr32_add_width (x : Word) (n : Int) : rotr32 x (32 + n) = rotr32 x n := by
  refine word_ext fun i hi => ?_
  have hround : ((i : Int) + (32 + n)) % 32 = ((i : Int) + n) % 32 := by omega
  rw [getLsbD_rotr32 x (32 + n) hi, getLsbD_rotr32 x n hi, hround]

/-- Bit `i` comes from bit `(i - k) mod 32` of the inner rotation, and that from `(i - k - n) mod 32` of the word. -/
theorem rotl32_rotl32 (x : Word) (n k : Int) : rotl32 (rotl32 x n) k = rotl32 x (n + k) := by
  refine word_ext fun i hi => ?_
  have hinner : (((i : Int) - k) % 32).toNat < 32 := rotAmount_lt (i - k)
  have hfrom : ((((i : Int) - k) % 32).toNat - n) % 32 = ((i : Int) - (n + k)) % 32 := by omega
  rw [getLsbD_rotl32 _ k hi, getLsbD_rotl32 x n hinner, getLsbD_rotl32 x (n + k) hi, hfrom]

@[simp] theorem rotl32_amount_zero (x : Word) : rotl32 x 0 = x := rfl

/-- The inverse rotates by the opposite amount. -/
theorem rotl32_bijective (n : Int) : Function.Bijective fun x => rotl32 x n := by
  refine Function.bijective_iff_has_inverse.mpr ⟨fun x => rotl32 x (-n), fun x => ?_, fun x => ?_⟩
  · simp [rotl32_rotl32]
  · simp [rotl32_rotl32]

theorem rotl32_zero (n : Int) : rotl32 0 n = 0 :=
  BitVec.eq_of_getElem_eq fun i hi => by simp

theorem rotl32_and (x y : Word) (n : Int) : rotl32 (x &&& y) n = rotl32 x n &&& rotl32 y n :=
  BitVec.eq_of_getElem_eq fun i hi => by simp

theorem rotl32_or (x y : Word) (n : Int) : rotl32 (x ||| y) n = rotl32 x n ||| rotl32 y n :=
  BitVec.eq_of_getElem_eq fun i hi => by simp

theorem rotl32_xor (x y : Word) (n : Int) : rotl32 (x ^^^ y) n = rotl32 x n ^^^ rotl32 y n :=
  BitVec.eq_of_getElem_eq fun i hi => by simp

/-- The complement reads `true` at each bit below the width alone, and the bit that moves is one of those. -/
theorem rotl32_not (x : Word) (n : Int) : rotl32 (~~~x) n = ~~~(rotl32 x n) :=
  BitVec.eq_of_getElem_eq fun i hi => by simp [Int.emod_lt_of_pos]

theorem rotl32_allOnes (n : Int) : rotl32 0xFFFFFFFF n = 0xFFFFFFFF := by
  have hones : (0xFFFFFFFF : Word) = ~~~0 := rfl
  rw [hones, rotl32_not, rotl32_zero]

/-- Settles O34: each law compares where the bits of its two sides come from. -/
theorem rotationLaws : Obligations.RotationLaws := by
  unfold Obligations.RotationLaws
  refine ⟨?opposite, rotl32_rotl32, rotl32_bijective, fun n => ⟨rotl32_zero n, rotl32_allOnes n⟩, ?bitwise⟩
  case opposite =>
    intro x n
    have hneg := rotl32_eq_rotr32_neg x n
    exact ⟨hneg.trans (rotr32_add_width x (-n)).symm, hneg⟩
  case bitwise =>
    exact fun x y n => ⟨rotl32_and x y n, rotl32_or x y n, rotl32_xor x y n, rotl32_not x n⟩

end Sys2Proof.Machine

/-! PROOFS. The engine always holds a message: what each command does to the message absorbed or finalized. -/

namespace Sys2Proof.Machine

/-- Padding that went through has counted the padded length, the first whole number of blocks that has room for the 0x80
and the length field (42_finalize.md R134, R138). -/
theorem finalCount_of_padMessage {s t : State} (hbytes : s.bitcnt.toNat % 8 = 0) (h : padMessage s = some t) :
    finalCount s < 2 ^ 64 := by
  simp only [padMessage_eq_bind, Option.bind_eq_some_iff] at h
  obtain ⟨s1, h1, s2, h2, h3⟩ := h
  have hone := absorb_count h1
  have hzeros := padZeros_count_le h2
  obtain ⟨h448, -⟩ := padZeros_some h2
  obtain ⟨hlength, -⟩ := absorb_eq_some h3
  obtain ⟨hz, hblocks, -⟩ := zeroCount_spec s.fill
  have hfill : s.fill = s.bitcnt.toNat / 8 % 64 := rfl
  rw [List.length_singleton] at hone
  rw [length_be64Bytes] at hlength
  rw [finalCount]
  omega

theorem State.Absorbed.finalCount_eq {m : List Byte} {s : State} (habs : s.Absorbed m) :
    finalCount s = 8 * (m.length + 9 + Reference.zeroCount m.length) := by
  obtain ⟨-, -, hmod⟩ := zeroCount_spec m.length
  rw [finalCount, habs.fill_eq, hmod, habs.count]
  omega

theorem State.Absorbed.absorb {m p : List Byte} {s t : State} (habs : s.Absorbed m) (h : absorb p s = some t) :
    t.Absorbed (m ++ p) := by
  obtain ⟨hfits, rfl⟩ := absorb_eq_some h
  rw [habs.count] at hfits
  exact habs.foldl_absorbByte (by rw [List.length_append]; omega)

/-- FINALIZE that goes on finalizes the message absorbed: it has not overflowed, so the padded length fits. -/
theorem State.Absorbed.finished {m : List Byte} {s u : State} (habs : s.Absorbed m)
    (hpad : Machine.padMessage s = some u) : u.storeDigest.Finished m := by
  have hcount := habs.count
  have hfits := finalCount_of_padMessage (by omega) hpad
  rw [habs.finalCount_eq] at hfits
  obtain ⟨t, ht, hmessage⟩ := habs.padMessage hfits
  cases hpad.symm.trans ht
  exact hmessage.storeDigest

theorem State.HoldsMessage.of_accepting {m : List Byte} {s : State} (hp : s.phase = .accepting) (habs : s.Absorbed m) :
    s.HoldsMessage := by
  rw [HoldsMessage, hp]
  exact ⟨m, habs⟩

theorem State.HoldsMessage.of_finalized {m : List Byte} {s : State} (hp : s.phase = .finalized) (hfin : s.Finished m) :
    s.HoldsMessage := by
  rw [HoldsMessage, hp]
  exact ⟨m, hfin⟩

theorem State.HoldsMessage.absorbed {s : State} (hs : s.HoldsMessage) (hp : s.phase = .accepting) :
    ∃ m, s.Absorbed m := by
  rwa [HoldsMessage, hp] at hs

/-- A state that differs only where the message does not show. -/
theorem State.HoldsMessage.congr {s t : State} (hs : s.HoldsMessage) (hphase : t.phase = s.phase) (hh : t.h = s.h)
    (hbitcnt : t.bitcnt = s.bitcnt) (hbb : t.bb = s.bb) (hdg : t.dg = s.dg) : t.HoldsMessage := by
  have hvalid : t.validBytes = s.validBytes := by rw [validBytes, hbb, fill_congr hbitcnt, validBytes]
  rw [HoldsMessage, hphase]
  rw [HoldsMessage] at hs
  cases hp : s.phase with
  | uninit => trivial
  | accepting =>
    rw [hp] at hs
    obtain ⟨m, hcount, hblocks, hrest⟩ := hs
    exact ⟨m, by rw [hbitcnt, hcount], by rw [hh, hblocks], by rw [hvalid, hrest]⟩
  | finalized =>
    rw [hp] at hs
    obtain ⟨m, hcount, hblocks, hstored⟩ := hs
    exact ⟨m, by rw [hbitcnt, hcount], by rw [hh, hblocks], by rw [hdg, hstored]⟩

theorem exec_holdsMessage {i : Instr} {s t : State} (hs : s.HoldsMessage) (h : exec i s = .next t) : t.HoldsMessage := by
  obtain ⟨-, rfl⟩ | ⟨-, hp, habs⟩ | ⟨-, hp, u, hpad, rfl⟩ | ⟨_, w, -, rfl⟩ := exec_next h
  case inl => exact .of_accepting rfl (startMessage_absorbed s)
  case inr.inl =>
    obtain ⟨m, hm⟩ := hs.absorbed hp
    exact .of_accepting ((absorb_phase habs).trans hp) (hm.absorb habs)
  case inr.inr.inl =>
    obtain ⟨m, hm⟩ := hs.absorbed hp
    exact .of_finalized rfl (hm.finished hpad)
  case inr.inr.inr => exact hs.congr rfl rfl rfl rfl rfl

/-- Settles O43: INIT starts the empty message, an APPEND extends the message absorbed and FINALIZE finalizes it; no other
step touches it, and reset leaves UNINIT, where nothing is asked. -/
theorem stepKeepsTheMessage : Obligations.StepKeepsTheMessage := by
  unfold Obligations.StepKeepsTheMessage
  intro s t hs h
  obtain ⟨-, rfl⟩ | ⟨_, -, rfl⟩ | ⟨_, _, i, u, -, -, hexec, rfl⟩ := step_next h
  case inl => exact hs
  case inr.inl => exact trivial
  case inr.inr =>
    have hdrop : s.dropInput.HoldsMessage := hs.congr rfl rfl rfl rfl rfl
    exact (exec_holdsMessage hdrop hexec).congr rfl rfl rfl rfl rfl

end Sys2Proof.Machine

/-! PROOFS. INIT and APPEND (41_init_append.md): what each answers, one equation per phase, and which commands violate the
contract. -/

namespace Sys2Proof.Machine

/-! ### INIT -/

theorem statusWord_startMessage (s : State) : statusWord s.startMessage = 0x00000001 := by
  simp [statusWord, State.shownFill, State.fill, Phase.code]

/-- Settles O13: INIT leaves `startMessage`, in which a READ of a DIGEST register is not valid. -/
theorem initStartsAMessage : Obligations.InitStartsAMessage := by
  unfold Obligations.InitStartsAMessage
  refine ⟨fun s => ?starts, rfl, fun w hop hne => ?reserved⟩
  case starts =>
    refine ⟨s.startMessage, exec_init s, rfl, rfl, fun a => rfl, rfl, statusWord_startMessage s,
      rfl, rfl, rfl, rfl, rfl, rfl, fun k hk => ?_⟩
    have hfault : exec (.read (k + 1)) s.startMessage = raise .digestNotValid (.read (k + 1)) s.startMessage :=
      execRead_digest_fault hk nofun
    rw [hfault, raise, encode_read_digest hk]
  case reserved => rw [decode_op_init hop, if_neg hne]

/-! ### APPEND, one equation per phase -/

section

variable {i : Instr} {s : State} (hi : isAppend i = true)
include hi

theorem exec_append_uninit (hp : s.phase = .uninit) : exec i s = .fault (.notInitialized s.cix (encode i)) := by
  rw [exec_append hi, appendPayload, hp]
  rfl

theorem exec_append_finalized (hp : s.phase = .finalized) : exec i s = .fault (.alreadyFinalized s.cix (encode i)) := by
  rw [exec_append hi, appendPayload, hp]
  rfl

theorem exec_append_of_absorb {t : State} (hp : s.phase = .accepting) (h : absorb (payload i) s = some t) :
    exec i s = .next t := by
  rw [exec_append hi, appendPayload, hp, h]

theorem exec_append_overflow (hp : s.phase = .accepting) (h : ¬ s.bitcnt.toNat + 8 * (payload i).length < 2 ^ 64) :
    exec i s = .fault (.counterOverflow s.cix (encode i)) := by
  rw [exec_append hi, appendPayload, hp, absorb_none h]
  rfl

end

theorem absorb_nil (s : State) : absorb [] s = some s := absorb_some s.bitcnt.isLt

/-- Settles O15: no byte is absorbed, and the counter always has room for none. -/
theorem appendOfNoByteChangesNothing : Obligations.AppendOfNoByteChangesNothing := by
  unfold Obligations.AppendOfNoByteChangesNothing
  exact fun s => ⟨fun hp => exec_append_of_absorb rfl hp (absorb_nil s), exec_append_uninit rfl,
    exec_append_finalized rfl⟩

/-! ### APPEND of one to three bytes: at most one block is completed -/

theorem absorbByte_of_fill_ne {s : State} (b : Byte) (h : s.fill ≠ 63) : absorbByte s b = s.storeByte b := if_neg h

/-- The byte that completes the block runs one compression, and H takes its working registers (43_compression.md R159). -/
theorem absorbByte_h_accumulate {s : State} (b : Byte) (h : s.fill = 63) :
    (absorbByte s b).h = accumulate s.h (absorbByte s b).wr := by
  rw [absorbByte, if_pos h]
  rfl

/-- Bytes that complete no block run no compression. -/
theorem foldl_absorbByte_registers (p : List Byte) (s : State) (hp : s.fill + p.length < 64) :
    (p.foldl absorbByte s).wr = s.wr ∧ (p.foldl absorbByte s).ws = s.ws := by
  induction p generalizing s with
  | nil => exact ⟨rfl, rfl⟩
  | cons b p ih =>
    rw [List.length_cons] at hp
    have hfill := absorbByte_fill s b
    have hstored := absorbByte_of_fill_ne b (s := s) (by omega)
    have hrest := ih (absorbByte s b) (by omega)
    rw [List.foldl_cons]
    rwa [hstored] at hrest ⊢

/-- Bytes that complete one block run one compression, of the block with the H before. -/
theorem foldl_absorbByte_accumulate (p : List Byte) (s : State) (hone : 64 ≤ s.fill + p.length)
    (htwo : s.fill + p.length < 128) : (p.foldl absorbByte s).h = accumulate s.h (p.foldl absorbByte s).wr := by
  induction p using List.reverseRecOn with
  | nil => exact absurd hone (Nat.not_le.2 (fill_lt s))
  | append_singleton p b ih =>
    rw [List.length_append, List.length_singleton] at hone htwo
    have hfill := fill_foldl_absorbByte p s
    rw [List.foldl_append, List.foldl_cons, List.foldl_nil]
    by_cases h63 : (p.foldl absorbByte s).fill = 63
    case pos => rw [absorbByte_h_accumulate b h63, foldl_absorbByte_h p s (by omega)]
    case neg =>
      rw [absorbByte_of_fill_ne b h63]
      exact ih (by omega) (by omega)

theorem appended_foldl_absorbByte {p : List Byte} {s : State} (hp : p.length ≤ 3)
    (hfits : s.bitcnt.toNat + 8 * p.length < 2 ^ 64) : Appended p s (p.foldl absorbByte s) := by
  have hfill := fill_lt s
  obtain ⟨hstored, hkept⟩ := foldl_absorbByte_reads p s hfits
  obtain ⟨hh, -⟩ := foldl_absorbByte_chain p s
  obtain ⟨hphase, hdg, hcix, hport, hresp⟩ := foldl_absorbByte_frame p s
  exact {
    count := foldl_absorbByte_count p s hfits
    fill := fill_foldl_absorbByte p s
    stored := fun j hj => hstored j hj (by omega)
    kept := hkept
    inBlock := fun hlt => ⟨foldl_absorbByte_h p s hlt, foldl_absorbByte_registers p s hlt⟩
    blockDone := fun hdone => by
      have hblocks : (s.fill + p.length) / 64 = 1 := by omega
      rw [hblocks] at hh
      exact ⟨hh, foldl_absorbByte_accumulate p s hdone (by omega)⟩
    phase := hphase, dg := hdg, cix := hcix, port := hport, resp := hresp }

/-- What an APPEND answers per phase, for its word `w` and the last counter `bound` that has room for its payload
(41_init_append.md R115 to R118). -/
theorem exec_append_answers {i : Instr} {w : Word} {bound : Nat} (hi : isAppend i = true) (hw : encode i = w)
    (hlen : (payload i).length ≤ 3) (hbound : bound + 8 * (payload i).length = 2 ^ 64 - 1) (s : State) :
    (s.phase = .accepting → s.bitcnt.toNat ≤ bound → ∃ t, exec i s = .next t ∧ Appended (payload i) s t) ∧
    (s.phase = .accepting → s.bitcnt.toNat > bound → exec i s = .fault (.counterOverflow s.cix w)) ∧
    (s.phase = .uninit → exec i s = .fault (.notInitialized s.cix w)) ∧
    (s.phase = .finalized → exec i s = .fault (.alreadyFinalized s.cix w)) := by
  subst hw
  refine ⟨fun hp hle => ?_, fun hp hgt => ?_, exec_append_uninit hi, exec_append_finalized hi⟩
  · have hfits : s.bitcnt.toNat + 8 * (payload i).length < 2 ^ 64 := by omega
    exact ⟨_, exec_append_of_absorb hi hp (absorb_some hfits), appended_foldl_absorbByte hlen hfits⟩
  · exact exec_append_overflow hi hp (by omega)

/-- The two payload bytes beyond CNT are the word's 16 low zero bits. -/
theorem encode_append1 (b0 : Byte) : encode (.append1 b0) = 0x21#8 ++ b0 ++ 0x0000#16 :=
  BitVec.append_assoc (x₁ := 0x21#8 ++ b0) (x₂ := 0x00#8) (x₃ := 0x00#8)

theorem encode_append2 (b0 b1 : Byte) : encode (.append2 b0 b1) = 0x22#8 ++ b0 ++ b1 ++ 0x00#8 := rfl

theorem encode_append3 (b0 b1 b2 : Byte) : encode (.append3 b0 b1 b2) = 0x23#8 ++ b0 ++ b1 ++ b2 := rfl

/-- Settles O16: `exec_append_answers` for one payload byte. -/
theorem appendOfOneByte : Obligations.AppendOfOneByte := by
  unfold Obligations.AppendOfOneByte
  exact fun s b0 => exec_append_answers rfl (encode_append1 b0) (by decide : 1 ≤ 3) rfl s

/-- Settles O17: `exec_append_answers` for two payload bytes. -/
theorem appendOfTwoBytes : Obligations.AppendOfTwoBytes := by
  unfold Obligations.AppendOfTwoBytes
  exact fun s b0 b1 => exec_append_answers rfl (encode_append2 b0 b1) (by decide : 2 ≤ 3) rfl s

/-- Settles O18: `exec_append_answers` for three payload bytes. -/
theorem appendOfThreeBytes : Obligations.AppendOfThreeBytes := by
  unfold Obligations.AppendOfThreeBytes
  exact fun s b0 b1 b2 => exec_append_answers rfl (encode_append3 b0 b1 b2) (by decide : 3 ≤ 3) rfl s

/-! ### The causes of a violation -/

/-- What a command answers by its violation: its fault where there is one, else a next state. -/
def AnswersViolation (o : Option (Nat → Word → Fault)) (i : Instr) (s : State) : Prop :=
  match o with
  | some c => exec i s = .fault (c s.cix (encode i))
  | none => ∃ t, exec i s = .next t

theorem violation_append {i : Instr} (hi : isAppend i = true) (s : State) : violation i s =
    if s.phase = .uninit then some .notInitialized
    else if s.phase = .finalized then some .alreadyFinalized
    else if s.bitcnt.toNat + 8 * (payload i).length > 2 ^ 64 - 1 then some .counterOverflow
    else none := by
  cases i with
  | append0 => rfl
  | append1 b0 => rfl
  | append2 b0 b1 => rfl
  | append3 b0 b1 b2 => rfl
  | _ => cases hi

theorem accepting_of_ne {s : State} (hu : s.phase ≠ .uninit) (hf : s.phase ≠ .finalized) : s.phase = .accepting := by
  cases hp : s.phase with
  | uninit => exact absurd hp hu
  | accepting => rfl
  | finalized => exact absurd hp hf

theorem append_answersViolation {i : Instr} (hi : isAppend i = true) (s : State) :
    AnswersViolation (violation i s) i s := by
  rw [violation_append hi]
  split_ifs with hu hf hover
  · exact exec_append_uninit hi hu
  · exact exec_append_finalized hi hf
  · exact exec_append_overflow hi (accepting_of_ne hu hf) (by omega)
  · exact ⟨_, exec_append_of_absorb hi (accepting_of_ne hu hf) (absorb_some (by omega))⟩

theorem execFinalize_accepting {s : State} (hp : s.phase = .accepting) : execFinalize s =
    (padMessage s).elim (raise .counterOverflow .finalize s) fun t => .next t.storeDigest := by
  rw [execFinalize, hp]
  cases padMessage s <;> rfl

theorem padMessage_of_overflow {s : State} (hbytes : s.bitcnt.toNat % 8 = 0) (h : finalCount s > 2 ^ 64 - 1) :
    padMessage s = none := by
  by_contra hne
  obtain ⟨t, ht⟩ := Option.ne_none_iff_exists'.1 hne
  have hfits := finalCount_of_padMessage hbytes ht
  omega

theorem violation_finalize (s : State) : violation .finalize s =
    if s.phase = .uninit then some .notInitialized
    else if s.phase = .finalized then some .alreadyFinalized
    else if finalCount s > 2 ^ 64 - 1 then some .counterOverflow
    else none := rfl

theorem finalize_answersViolation {s : State} (hbytes : s.phase ≠ .uninit → s.bitcnt.toNat % 8 = 0) :
    AnswersViolation (violation .finalize s) .finalize s := by
  rw [violation_finalize]
  split_ifs with hu hf hover
  · rw [AnswersViolation, exec, execFinalize, hu]
    rfl
  · rw [AnswersViolation, exec, execFinalize, hf]
    rfl
  · rw [AnswersViolation, exec, execFinalize_accepting (accepting_of_ne hu hf),
      padMessage_of_overflow (hbytes hu) hover]
    rfl
  · rw [AnswersViolation, exec, execFinalize_accepting (accepting_of_ne hu hf),
      padMessage_of_fits (hbytes hu) (by omega)]
    exact ⟨_, rfl⟩

theorem violation_read_status (s : State) : violation (.read 0) s = none := rfl

theorem violation_read_digest {k : Nat} (hk : k < 5) (s : State) :
    violation (.read (k + 1)) s = if s.phase ≠ .finalized then some .digestNotValid else none := by
  have hlow : ¬ 8 ≤ k + 1 ∧ ¬ 6 ≤ k + 1 := by omega
  have hreg : 1 ≤ k + 1 ∧ k + 1 ≤ 5 := by omega
  simp only [violation, hlow, hreg, true_and, false_and, if_false]

theorem violation_read_counter {reg : Nat} (hreg : reg = 6 ∨ reg = 7) (s : State) :
    violation (.read reg) s = if s.phase = .uninit then some .counterNotValid else none := by
  obtain rfl | rfl := hreg <;> simp [violation]

theorem violation_read_reserved {reg : Nat} (hreg : 8 ≤ reg) (s : State) :
    violation (.read reg) s = some .reservedRegister := if_pos hreg

/-- A command that faults under one condition, which is its violation. -/
theorem answersViolation_of_ite {c : Prop} [Decidable c] {code : Nat → Word → Fault} {i : Instr} {s t : State}
    (h : exec i s = if c then raise code i s else .next t) : AnswersViolation (if c then some code else none) i s := by
  split
  case isTrue hc => exact h.trans (if_pos hc)
  case isFalse hc => exact ⟨t, h.trans (if_neg hc)⟩

theorem read_answersViolation (reg : Nat) (s : State) : AnswersViolation (violation (.read reg) s) (.read reg) s := by
  obtain rfl | ⟨k, hk, rfl⟩ | rfl | rfl | hreg := register_cases reg
  case inl =>
    rw [violation_read_status]
    exact ⟨_, execRead_status s⟩
  case inr.inl =>
    rw [violation_read_digest hk]
    split
    case isTrue hp => exact execRead_digest_fault hk hp
    case isFalse hp => exact ⟨_, execRead_digest hk (not_not.1 hp)⟩
  case inr.inr.inl =>
    rw [violation_read_counter (.inl rfl)]
    exact answersViolation_of_ite (execRead_countLo s)
  case inr.inr.inr.inl =>
    rw [violation_read_counter (.inr rfl)]
    exact answersViolation_of_ite (execRead_countHi s)
  case inr.inr.inr.inr =>
    rw [violation_read_reserved hreg]
    exact execRead_reserved hreg s

theorem exec_answersViolation (i : Instr) {s : State} (hbytes : s.phase ≠ .uninit → s.bitcnt.toNat % 8 = 0) :
    AnswersViolation (violation i s) i s := by
  cases i with
  | init => exact ⟨_, exec_init s⟩
  | finalize => exact finalize_answersViolation hbytes
  | read reg => exact read_answersViolation reg s
  | append0 => exact append_answersViolation rfl s
  | append1 b0 => exact append_answersViolation rfl s
  | append2 b0 b1 => exact append_answersViolation rfl s
  | append3 b0 b1 b2 => exact append_answersViolation rfl s

/-- Settles O12: `exec_answersViolation`, read for a violation and for none. -/
theorem commandFaultsExactlyOnViolation : Obligations.CommandFaultsExactlyOnViolation := by
  unfold Obligations.CommandFaultsExactlyOnViolation
  intro i s _ hbytes
  have hanswer := exec_answersViolation i hbytes
  refine ⟨fun c hc => ?_, fun hnone => ?_⟩
  · rwa [hc] at hanswer
  · rwa [hnone] at hanswer

end Sys2Proof.Machine

/-! PROOFS. Absorbs in sequence (41_init_append.md R119 to R121): the blocks they complete, and that any sequence of them is
one absorb of the concatenation. -/

namespace Sys2Proof.Machine

/-- Settles O19: H and the valid bytes by `foldl_absorbByte_chain`, where the counter has room. -/
theorem absorbCompressesTheBlocksItCompletes : Obligations.AbsorbCompressesTheBlocksItCompletes := by
  unfold Obligations.AbsorbCompressesTheBlocksItCompletes
  intro p s hroom
  have hfits : s.bitcnt.toNat + 8 * p.length < 2 ^ 64 := by omega
  obtain ⟨hh, hvalid⟩ := foldl_absorbByte_chain p s
  exact ⟨_, absorb_some hfits, foldl_absorbByte_count p s hfits, fill_foldl_absorbByte p s, hh, hvalid⟩

/-- The counter has room for `p` and then for `q` exactly where it has room for both. -/
theorem absorb_append (p q : List Byte) (s : State) : absorb (p ++ q) s = (absorb p s).bind (absorb q) := by
  by_cases hp : s.bitcnt.toNat + 8 * p.length < 2 ^ 64
  case pos =>
    have hcount := foldl_absorbByte_count p s hp
    rw [absorb_some hp, Option.bind_some]
    by_cases hq : s.bitcnt.toNat + 8 * (p ++ q).length < 2 ^ 64
    · rw [absorb_some hq, absorb_some (by rw [List.length_append] at hq; omega), List.foldl_append]
    · rw [absorb_none hq, absorb_none (by rw [List.length_append] at hq; omega)]
  case neg => rw [absorb_none hp, absorb_none (by rw [List.length_append]; omega), Option.bind_none]

/-- Settles O20: `absorb_append`. -/
theorem absorbOfConcatenation : Obligations.AbsorbOfConcatenation := by
  unfold Obligations.AbsorbOfConcatenation
  exact fun p q s => (absorb_append p q s).symm

theorem execAll_cons_of_next {i : Instr} {is : List Instr} {s u : State} (h : exec i s = .next u) :
    execAll (i :: is) s = execAll is u := by
  rw [execAll, h]

theorem execAll_appends {is : List Instr} {s t : State} (his : ∀ i ∈ is, isAppend i = true) (hp : s.phase = .accepting)
    (h : absorb (is.flatMap payload) s = some t) : execAll is s = .next t := by
  induction is generalizing s with
  | nil =>
    cases (absorb_nil s).symm.trans h
    rfl
  | cons i is ih =>
    rw [List.flatMap_cons, absorb_append, Option.bind_eq_some_iff] at h
    obtain ⟨u, hu, ht⟩ := h
    rw [execAll_cons_of_next (exec_append_of_absorb (his i List.mem_cons_self) hp hu)]
    exact ih (fun j hj => his j (List.mem_cons_of_mem _ hj)) ((absorb_phase hu).trans hp) ht

/-- Settles O21: each APPEND absorbs its payload, and absorbs in sequence are one. -/
theorem appendSequenceIsOneAbsorb : Obligations.AppendSequenceIsOneAbsorb := by
  unfold Obligations.AppendSequenceIsOneAbsorb
  exact fun is s t => execAll_appends

/-- Absorbs in sequence from an engine that has absorbed `m` extend the message by all they carry. -/
theorem State.Absorbed.foldlM_absorb {m : List Byte} {s : State} (habs : s.Absorbed m) {chunks : List (List Byte)}
    (hfits : 8 * (m ++ chunks.flatten).length < 2 ^ 64) :
    ∃ t, chunks.foldlM (fun u p => Machine.absorb p u) s = some t ∧ t.Absorbed (m ++ chunks.flatten) := by
  induction chunks generalizing m s with
  | nil => exact ⟨s, rfl, by rwa [List.flatten_nil, List.append_nil]⟩
  | cons p chunks ih =>
    rw [List.flatten_cons, ← List.append_assoc] at hfits ⊢
    have hcount := habs.count
    have hu : Machine.absorb p s = some (p.foldl absorbByte s) :=
      absorb_some (by simp only [List.length_append] at hfits; omega)
    rw [List.foldlM_cons, hu]
    exact ih (habs.absorb hu) hfits

/-- Settles O22: INIT leaves the empty message, which the absorbs extend. -/
theorem absorbsSinceInitHoldTheMessage : Obligations.AbsorbsSinceInitHoldTheMessage := by
  unfold Obligations.AbsorbsSinceInitHoldTheMessage
  intro s chunks hlen
  exact (startMessage_absorbed s).foldlM_absorb (by rw [List.nil_append]; omega)

end Sys2Proof.Machine

/-! PROOFS. The source's absorb by blocks (41_init_append.md R112) and the engine's by bytes (R114): each counts the bytes,
compresses the blocks that they complete, in stream order, and keeps the rest as valid bytes. That fixes every field but BB,
and of BB the valid bytes. -/

namespace Sys2Proof.Machine

/-! ### The compressions of an absorb -/

/-- The first `n` blocks of a byte sequence compressed, in order. -/
def compressBlocks (bs : List Byte) : Nat → State → State
  | 0, s => s
  | n + 1, s => compress (Reference.blockAt bs n) (compressBlocks bs n s)

theorem compressBlocks_append {bs : List Byte} {n : Nat} (cs : List Byte) (hn : 64 * n ≤ bs.length) (s : State) :
    compressBlocks (bs ++ cs) n s = compressBlocks bs n s := by
  induction n with
  | zero => rfl
  | succ n ih => rw [compressBlocks, compressBlocks, ih (by omega), blockAt_append cs hn]

/-- The first block, then those of the rest. -/
theorem compressBlocks_succ (bs : List Byte) (n : Nat) (s : State) :
    compressBlocks bs (n + 1) s = compressBlocks (bs.drop 64) n (compress (Reference.blockAt bs 0) s) := by
  induction n with
  | zero => rfl
  | succ n ih =>
    have hblock : Reference.blockAt (bs.drop 64) n = Reference.blockAt bs (n + 1) := by
      rw [Nat.add_comm n 1]
      exact blockAt_drop bs n 1
    rw [compressBlocks, ih, compressBlocks, hblock]

/-- All but BB and BITCNT, which a compression neither reads nor writes. -/
def State.withoutBuffer (s : State) : State := { s with bb := Memory.zeroed, bitcnt := 0 }

theorem State.withoutBuffer_compress (blk : Vector Byte 64) (s : State) :
    (compress blk s).withoutBuffer = compress blk s.withoutBuffer := rfl

/-- What an absorb of `p` leaves of `s`, whichever its form (41_init_append.md R112, R114). -/
structure Absorbs (p : List Byte) (s t : State) : Prop where
  count : t.bitcnt = addBytes s.bitcnt p.length
  valid : t.validBytes = (s.validBytes ++ p).drop (64 * ((s.fill + p.length) / 64))
  rest : t.withoutBuffer = compressBlocks (s.validBytes ++ p) ((s.fill + p.length) / 64) s.withoutBuffer

/-! ### By bytes -/

theorem withoutBuffer_absorbByte (s : State) (b : Byte) : (absorbByte s b).withoutBuffer =
    if s.fill = 63 then compress (Reference.blockAt (s.validBytes ++ [b]) 0) s.withoutBuffer else s.withoutBuffer := by
  split
  case isTrue h63 =>
    have hblock : (s.storeByte b).bb.firstBytes 64 = s.validBytes ++ [b] := by
      rw [State.storeByte_bb, State.validBytes, h63, Memory.firstBytes_write]
    rw [absorbByte, if_pos h63, block_of_firstBytes hblock]
    rfl
  case isFalse h63 =>
    rw [absorbByte_of_fill_ne b h63]
    rfl

theorem withoutBuffer_foldl_absorbByte (p : List Byte) (s : State) : (p.foldl absorbByte s).withoutBuffer =
    compressBlocks (s.validBytes ++ p) ((s.fill + p.length) / 64) s.withoutBuffer := by
  induction p using List.reverseRecOn with
  | nil =>
    have hnone : (s.fill + ([] : List Byte).length) / 64 = 0 := Nat.div_eq_of_lt (fill_lt s)
    rw [hnone]
    rfl
  | append_singleton p b ih =>
    obtain ⟨-, hvalid⟩ := foldl_absorbByte_chain p s
    have hlen : (s.validBytes ++ p).length = s.fill + p.length := by rw [List.length_append, length_validBytes]
    have hblocks : 64 * ((s.fill + p.length) / 64) ≤ (s.validBytes ++ p).length := by omega
    rw [List.foldl_append, List.foldl_cons, List.foldl_nil, withoutBuffer_absorbByte, fill_foldl_absorbByte, hvalid, ih,
      List.length_append, List.length_singleton, ← List.append_assoc, ← List.drop_append_of_le_length hblocks,
      blockAt_drop, ← compressBlocks_append [b] hblocks]
    split
    case isTrue h63 =>
      have hmore : (s.fill + (p.length + 1)) / 64 = (s.fill + p.length) / 64 + 1 := by omega
      rw [hmore]
      rfl
    case isFalse h63 =>
      have hsame : (s.fill + (p.length + 1)) / 64 = (s.fill + p.length) / 64 := by omega
      rw [hsame]

theorem absorbs_foldl_absorbByte {p : List Byte} {s : State} (hfits : s.bitcnt.toNat + 8 * p.length < 2 ^ 64) :
    Absorbs p s (p.foldl absorbByte s) where
  count := BitVec.eq_of_toNat_eq ((foldl_absorbByte_count p s hfits).trans (addBytes_toNat hfits).symm)
  valid := (foldl_absorbByte_chain p s).2
  rest := withoutBuffer_foldl_absorbByte p s

/-! ### By blocks -/

/-- Writing bytes after the first `n` appends them. -/
theorem Memory.firstBytes_writeBytes (m : Memory) (n : Nat) (vs : List Byte) :
    (m.writeBytes n vs).firstBytes (n + vs.length) = m.firstBytes n ++ vs := by
  induction vs generalizing m n with
  | nil => rw [List.append_nil]; rfl
  | cons v vs ih =>
    rw [Memory.writeBytes, List.length_cons, Nat.add_comm vs.length 1, ← Nat.add_assoc, ih, Memory.firstBytes_write,
      List.append_assoc, List.singleton_append]

/-- The loop of R112 step 3 takes every whole block, where its bound allows that many. -/
theorem absorbWhole_spec {n : Nat} {q : List Byte} (hn : q.length < 64 * (n + 1)) (s : State) :
    (Reference.absorbWhole n q s).1 = q.drop (64 * (q.length / 64)) ∧
    (Reference.absorbWhole n q s).2.bitcnt = s.bitcnt ∧
    (Reference.absorbWhole n q s).2.withoutBuffer = compressBlocks q (q.length / 64) s.withoutBuffer := by
  induction n generalizing q s with
  | zero =>
    have hnone : q.length / 64 = 0 := Nat.div_eq_of_lt hn
    rw [hnone]
    exact ⟨rfl, rfl, rfl⟩
  | succ n ih =>
    rw [Reference.absorbWhole]
    split
    case isTrue hblock =>
      have hlen : (q.drop 64).length = q.length - 64 := List.length_drop
      have hmore : q.length / 64 = (q.drop 64).length / 64 + 1 := by omega
      obtain ⟨hrest, hcount, hblocks⟩ := ih (q := q.drop 64) (by omega) (compress (Reference.blockAt q 0) s)
      rw [hrest, hcount, hblocks, List.drop_drop, hmore, compressBlocks_succ, State.withoutBuffer_compress]
      exact ⟨congrArg q.drop (by omega), rfl, rfl⟩
    case isFalse hshort =>
      have hnone : q.length / 64 = 0 := by omega
      rw [hnone]
      exact ⟨rfl, rfl, rfl⟩

/-- The bytes of `p` that the current block has room for, stored, and all of `p` counted (R112 steps 1 and 2). -/
def State.fillBlock (p : List Byte) (s : State) : State :=
  { s with bitcnt := addBytes s.bitcnt p.length, bb := s.bb.writeBytes s.fill (p.take (64 - s.fill)) }

/-- The block that this completes, compressed, then the loop over the rest of `p` (R112 step 3). -/
def State.wholeBlocks (p : List Byte) (s : State) : List Byte × State :=
  Reference.absorbWhole p.length (p.drop (64 - s.fill)) (compress (s.fillBlock p).bb.block (s.fillBlock p))

/-- What the loop leaves over, stored at the front of the buffer (R112 step 4, 90_conflicts.md C1). -/
def State.storeRest (r : List Byte × State) : State := { r.2 with bb := r.2.bb.writeBytes 0 r.1 }

theorem State.firstBytes_fillBlock {p : List Byte} {s : State} {n : Nat}
    (hn : n = s.fill + (p.take (64 - s.fill)).length) :
    (s.fillBlock p).bb.firstBytes n = s.validBytes ++ p.take (64 - s.fill) :=
  hn ▸ Memory.firstBytes_writeBytes s.bb s.fill (p.take (64 - s.fill))

/-- The bytes that complete the current block make it the first block of the stream. -/
theorem State.block_fillBlock {p : List Byte} {s : State} (hblock : 64 ≤ s.fill + p.length) :
    (s.fillBlock p).bb.block = Reference.blockAt (s.validBytes ++ p) 0 := by
  have hlt := fill_lt s
  have hlen : s.fill + (p.take (64 - s.fill)).length = 64 := by rw [List.length_take]; omega
  have hstream : (s.validBytes ++ p.take (64 - s.fill)) ++ p.drop (64 - s.fill) = s.validBytes ++ p := by
    rw [List.append_assoc, List.take_append_drop]
  rw [block_of_firstBytes (firstBytes_fillBlock hlen.symm), ← hstream]
  exact (blockAt_append _ (by rw [List.length_append, length_validBytes, hlen])).symm

/-- With the block that the current one becomes, the loop takes every whole block of the stream. -/
theorem State.wholeBlocks_spec {p : List Byte} {s : State} (hblock : 64 ≤ s.fill + p.length) :
    (s.wholeBlocks p).1 = (s.validBytes ++ p).drop (64 * ((s.fill + p.length) / 64)) ∧
    (s.wholeBlocks p).2.bitcnt = addBytes s.bitcnt p.length ∧
    (s.wholeBlocks p).2.withoutBuffer =
      compressBlocks (s.validBytes ++ p) ((s.fill + p.length) / 64) s.withoutBuffer := by
  have hlt := fill_lt s
  have hlen : (p.drop (64 - s.fill)).length = p.length - (64 - s.fill) := List.length_drop
  have hmore : (s.fill + p.length) / 64 = (p.drop (64 - s.fill)).length / 64 + 1 := by omega
  have hstream : (s.validBytes ++ p).drop 64 = p.drop (64 - s.fill) := by
    rw [List.drop_append, length_validBytes, List.drop_eq_nil_of_le (by rw [length_validBytes]; omega), List.nil_append]
  obtain ⟨hleft, hcount, hblocks⟩ := absorbWhole_spec (n := p.length) (q := p.drop (64 - s.fill)) (by omega)
    (compress (s.fillBlock p).bb.block (s.fillBlock p))
  rw [hmore, compressBlocks_succ, hstream, ← block_fillBlock hblock, Nat.mul_succ, Nat.add_comm, ← List.drop_drop,
    hstream]
  exact ⟨hleft, hcount, hblocks⟩

/-- FILL after the bytes of `p` are counted. -/
theorem fill_of_count {p : List Byte} {s t : State} (hfits : s.bitcnt.toNat + 8 * p.length < 2 ^ 64)
    (hcount : t.bitcnt = addBytes s.bitcnt p.length) : t.fill = (s.fill + p.length) % 64 := by
  rw [State.fill, hcount, addBytes_toNat hfits, State.fill]
  omega

theorem countFits_iff (c : Count) (n : Nat) : countFits c n = true ↔ c.toNat + 8 * n < 2 ^ 64 := decide_eq_true_iff

theorem reference_absorb_none {p : List Byte} {s : State} (h : ¬ s.bitcnt.toNat + 8 * p.length < 2 ^ 64) :
    Reference.absorb p s = none :=
  if_neg ((countFits_iff _ _).not.2 h)

section

variable {p : List Byte} {s : State} (hfits : s.bitcnt.toNat + 8 * p.length < 2 ^ 64)
include hfits

theorem reference_absorb_inBlock (hlt : s.fill + p.length < 64) : Reference.absorb p s = some (s.fillBlock p) := by
  have hall : p.take (64 - s.fill) = p := List.take_of_length_le (by omega)
  rw [Reference.absorb, if_pos ((countFits_iff _ _).2 hfits), State.fillBlock, hall]
  exact if_neg (by omega)

theorem reference_absorb_blocks (hblock : 64 ≤ s.fill + p.length) :
    Reference.absorb p s = some (State.storeRest (s.wholeBlocks p)) := by
  rw [Reference.absorb, if_pos ((countFits_iff _ _).2 hfits)]
  exact if_pos hblock

theorem absorbs_fillBlock (hlt : s.fill + p.length < 64) : Absorbs p s (s.fillBlock p) := by
  have hnone : (s.fill + p.length) / 64 = 0 := Nat.div_eq_of_lt hlt
  have hall : p.take (64 - s.fill) = p := List.take_of_length_le (by omega)
  have hfill : (s.fillBlock p).fill = s.fill + p.length := (fill_of_count hfits rfl).trans (Nat.mod_eq_of_lt hlt)
  refine ⟨rfl, ?valid, ?rest⟩
  case valid =>
    rw [State.validBytes, State.firstBytes_fillBlock (by rw [hall, hfill]), hall, hnone]
    rfl
  case rest =>
    rw [hnone]
    rfl

theorem absorbs_storeRest (hblock : 64 ≤ s.fill + p.length) : Absorbs p s (State.storeRest (s.wholeBlocks p)) := by
  obtain ⟨hleft, hcount, hblocks⟩ := State.wholeBlocks_spec hblock
  refine ⟨hcount, ?valid, hblocks⟩
  have hfill : (State.storeRest (s.wholeBlocks p)).fill = (s.wholeBlocks p).1.length := by
    rw [fill_of_count (t := State.storeRest (s.wholeBlocks p)) hfits hcount, hleft, List.length_drop, List.length_append,
      length_validBytes]
    omega
  have hfirst := Memory.firstBytes_writeBytes (s.wholeBlocks p).2.bb 0 (s.wholeBlocks p).1
  rw [Nat.zero_add, Memory.firstBytes_zero, List.nil_append] at hfirst
  rw [State.validBytes, hfill, ← hleft]
  exact hfirst

theorem reference_absorb_some : ∃ t, Reference.absorb p s = some t ∧ Absorbs p s t := by
  by_cases hlt : s.fill + p.length < 64
  case pos => exact ⟨_, reference_absorb_inBlock hfits hlt, absorbs_fillBlock hfits hlt⟩
  case neg =>
    have hblock : 64 ≤ s.fill + p.length := Nat.le_of_not_lt hlt
    exact ⟨_, reference_absorb_blocks hfits hblock, absorbs_storeRest hfits hblock⟩

end

/-- Settles O23: both forms do what `Absorbs` says, which leaves open the invalid bytes alone. -/
theorem absorbByBlocksAgreesWithBytewise : Obligations.AbsorbByBlocksAgreesWithBytewise := by
  unfold Obligations.AbsorbByBlocksAgreesWithBytewise
  intro p s
  by_cases hfits : s.bitcnt.toNat + 8 * p.length < 2 ^ 64
  case pos =>
    obtain ⟨t, ht, hblocks⟩ := reference_absorb_some hfits
    have hbytes := absorbs_foldl_absorbByte hfits
    have hrest := hblocks.rest.trans hbytes.rest.symm
    obtain ⟨hphase, hh, -, -, hdg, hwr, hws, hcix, hport, hresp⟩ := State.mk.inj hrest
    rw [ht, absorb_some hfits]
    exact ⟨hh, hblocks.count.trans hbytes.count.symm, hblocks.valid.trans hbytes.valid.symm, hwr, hws, hdg, hphase, hcix,
      hport, hresp⟩
  case neg =>
    rw [reference_absorb_none hfits, absorb_none hfits]
    trivial

end Sys2Proof.Machine

/-! PROOFS. FINALIZE (42_finalize.md): the padding and its length, what the padded message's bytes are, what FINALIZE leaves
behind where the padded length fits the counter, and when it faults. -/

namespace Sys2Proof.Machine

/-! ### The padding -/

theorem zeroCount_of_le {r : Nat} (hr : r ≤ 55) : Reference.zeroCount r = 55 - r := by
  unfold Reference.zeroCount
  omega

theorem zeroCount_of_ge {r : Nat} (hr : 56 ≤ r) (hlt : r < 64) : Reference.zeroCount r = 119 - r := by
  unfold Reference.zeroCount
  omega

/-- Settles O26: the two ranges of R133, where one block has room for the 0x80 and the length field and where not. -/
theorem paddingIsAWholeNumberOfBlocks : Obligations.PaddingIsAWholeNumberOfBlocks := by
  unfold Obligations.PaddingIsAWholeNumberOfBlocks
  intro r hr
  obtain ⟨hlt, -, -⟩ := zeroCount_spec r
  refine ⟨hlt, fun hle => ?_, fun hge => ?_⟩
  · have hz := zeroCount_of_le hle
    exact ⟨hz, by omega⟩
  · have hz := zeroCount_of_ge hge hr
    exact ⟨hz, by omega⟩

theorem getElem?_be64Bytes (c : Count) {j : Nat} (hj : j < 8) :
    (be64Bytes c)[j]? = some (c.extractLsb' (56 - 8 * j) 8) := by
  rw [be64Bytes, List.getElem?_map, List.getElem?_range hj, Option.map_some]

/-- A byte of a number that fits the counter, `k` bits up. -/
theorem extractLsb_ofNat_of_lt {n : Nat} (hn : n < 2 ^ 64) (k : Nat) :
    (BitVec.ofNat 64 n).extractLsb' k 8 = BitVec.ofNat 8 (n / 2 ^ k) := by
  apply BitVec.eq_of_toNat_eq
  rw [BitVec.extractLsb'_toNat, BitVec.toNat_ofNat, BitVec.toNat_ofNat, Nat.mod_eq_of_lt hn, Nat.shiftRight_eq_div_pow]

/-- The padded message: the message and 0x80, then the zeros and the length field. -/
theorem padded_eq (m : List Byte) : Reference.padded m = (m ++ [0x80]) ++
    (List.replicate (Reference.zeroCount m.length) 0x00 ++ be64Bytes (BitVec.ofNat 64 (8 * m.length))) :=
  List.append_assoc ..

/-- The bytes behind the 0x80. -/
theorem getElem?_padded_add (m : List Byte) (j : Nat) : (Reference.padded m)[m.length + 1 + j]? =
    (List.replicate (Reference.zeroCount m.length) 0x00 ++ be64Bytes (BitVec.ofNat 64 (8 * m.length)))[j]? := by
  have hlen : (m ++ [(0x80 : Byte)]).length = m.length + 1 := List.length_append
  rw [padded_eq, List.getElem?_append_right (by omega), hlen, Nat.add_sub_cancel_left]

theorem getElem?_padded_zeros (m : List Byte) {j : Nat} (hj : j < Reference.zeroCount m.length) :
    (Reference.padded m)[m.length + 1 + j]? = some 0x00 := by
  rw [getElem?_padded_add, List.getElem?_append_left (by rwa [List.length_replicate]), List.getElem?_replicate_of_lt hj]

theorem getElem?_padded_length (m : List Byte) {j : Nat} (hj : j < 8) :
    (Reference.padded m)[(Reference.padded m).length - 8 + j]? =
      some ((BitVec.ofNat 64 (8 * m.length)).extractLsb' (56 - 8 * j) 8) := by
  have hindex : (Reference.padded m).length - 8 + j = m.length + 1 + (Reference.zeroCount m.length + j) := by
    rw [length_padded]
    omega
  rw [hindex, getElem?_padded_add, List.getElem?_append_right (by rw [List.length_replicate]; omega),
    List.length_replicate, Nat.add_sub_cancel_left, getElem?_be64Bytes _ hj]

/-- Settles O52: the parts of the padded message at their places; the length field has room, as the padded length has. -/
theorem paddedMessageIsWholeBlocks : Obligations.PaddedMessageIsWholeBlocks := by
  unfold Obligations.PaddedMessageIsWholeBlocks
  intro m hfits
  have hbits : 8 * m.length < 2 ^ 64 := by
    have hbound : 8 * (m.length + 9 + Reference.zeroCount m.length) < 2 ^ 64 := hfits
    omega
  obtain ⟨-, hblocks, -⟩ := zeroCount_spec m.length
  refine ⟨by rwa [length_padded], length_padded m, ?front, fun j hj => getElem?_padded_zeros m hj, fun j hj => ?length⟩
  case front =>
    rw [padded_eq]
    exact List.take_left' List.length_append
  case length => rw [getElem?_padded_length m hj, extractLsb_ofNat_of_lt hbits]

/-! ### What FINALIZE leaves behind -/

/-- What FINALIZE absorbs: 0x80, the zeros and the length field (42_finalize.md R131 to R133). -/
def finalPadding (s : State) : List Byte :=
  [0x80] ++ List.replicate (Reference.zeroCount s.fill) 0x00 ++ be64Bytes s.bitcnt

theorem finalBytes_eq (s : State) : finalBytes s = s.validBytes ++ finalPadding s := by
  simp only [finalBytes, finalPadding, List.append_assoc]

theorem length_finalPadding (s : State) : (finalPadding s).length = 9 + Reference.zeroCount s.fill := by
  simp only [finalPadding, List.length_append, List.length_singleton, List.length_replicate, length_be64Bytes]
  omega

theorem length_finalBytes (s : State) : (finalBytes s).length = s.fill + (finalPadding s).length := by
  rw [finalBytes_eq, List.length_append, length_validBytes]

/-- One block where it has room for the 0x80 and the length field behind the valid bytes, else two (R134). -/
theorem length_finalBytes_eq_ite (s : State) : (finalBytes s).length = if s.fill ≤ 55 then 64 else 128 := by
  rw [length_finalBytes, length_finalPadding]
  split
  case isTrue hle =>
    rw [zeroCount_of_le hle]
    omega
  case isFalse hgt =>
    have hlt := fill_lt s
    rw [zeroCount_of_ge (by omega) hlt]
    omega

/-- Bytes that end on a block boundary leave the last block of the stream in BB: the last of them goes to address 63, behind
the 63 valid bytes that the others left. -/
theorem firstBytes_foldl_absorbByte {p : List Byte} {s : State} (hwhole : (s.fill + p.length) % 64 = 0)
    (hblock : 64 ≤ s.fill + p.length) :
    (p.foldl absorbByte s).bb.firstBytes 64 = (s.validBytes ++ p).drop (s.fill + p.length - 64) := by
  obtain rfl | ⟨q, b, rfl⟩ := List.eq_nil_or_concat' p
  · exact absurd hblock (Nat.not_le.2 (fill_lt s))
  · rw [List.length_append, List.length_singleton] at hwhole hblock ⊢
    have hfill : (q.foldl absorbByte s).fill = 63 := by
      rw [fill_foldl_absorbByte]
      omega
    have hstart : 64 * ((s.fill + q.length) / 64) = s.fill + (q.length + 1) - 64 := by omega
    have hle : s.fill + (q.length + 1) - 64 ≤ (s.validBytes ++ q).length := by
      rw [List.length_append, length_validBytes]
      omega
    obtain ⟨-, hvalid⟩ := foldl_absorbByte_chain q s
    rw [State.validBytes, hfill, hstart] at hvalid
    rw [List.foldl_append, List.foldl_cons, List.foldl_nil, absorbByte_bb, hfill, Memory.firstBytes_write, hvalid,
      ← List.append_assoc, List.drop_append_of_le_length hle]

/-- Absorbing writes inside the block buffer alone. -/
theorem foldl_absorbByte_outside (p : List Byte) (s : State) {a : Nat} (ha : 64 ≤ a) :
    (p.foldl absorbByte s).bb.read a = s.bb.read a := by
  induction p generalizing s with
  | nil => rfl
  | cons b p ih =>
    have hlt := fill_lt s
    rw [List.foldl_cons, ih, absorbByte_bb, Memory.read_write_other _ _ (by omega)]

theorem finalized_storeDigest {s : State} (hbytes : s.bitcnt.toNat % 8 = 0) (hfits : finalCount s < 2 ^ 64) :
    Finalized s ((finalPadding s).foldl absorbByte s).storeDigest := by
  have hlen := length_finalBytes s
  have hblocks := length_finalBytes_eq_ite s
  have hwhole : (s.fill + (finalPadding s).length) % 64 = 0 := by rw [← hlen, hblocks]; split <;> rfl
  have hblock : 64 ≤ s.fill + (finalPadding s).length := by rw [← hlen, hblocks]; split <;> decide
  have htotal : s.bitcnt.toNat + 8 * (finalPadding s).length = finalCount s := by rw [length_finalPadding, finalCount]
  have hcount := foldl_absorbByte_count (finalPadding s) s (by omega)
  have hfill : ((finalPadding s).foldl absorbByte s).fill = 0 := by rw [fill_foldl_absorbByte, hwhole]
  obtain ⟨hh, -⟩ := foldl_absorbByte_chain (finalPadding s) s
  obtain ⟨-, -, hcix, hport, hresp⟩ := foldl_absorbByte_frame (finalPadding s) s
  exact {
    phase := rfl
    h := by rw [hlen, finalBytes_eq]; exact hh
    blocks := hblocks
    count := hcount.trans htotal
    wholeBlocks := by
      rw [State.fill] at hwhole
      rw [State.storeDigest_bitcnt, hcount]
      omega
    fill := hfill
    digest := fun k hk j hj => getElem_digestBytes _ k j hk hj
    lastBlock := by rw [hlen, finalBytes_eq]; exact firstBytes_foldl_absorbByte hwhole hblock
    outside := fun a ha => foldl_absorbByte_outside _ s ha
    cix := hcix, port := hport, resp := hresp }

theorem exec_finalize_of_fits {s : State} (hp : s.phase = .accepting) (hbytes : s.bitcnt.toNat % 8 = 0)
    (hfits : finalCount s < 2 ^ 64) :
    exec .finalize s = .next ((finalPadding s).foldl absorbByte s).storeDigest := by
  rw [exec, execFinalize_accepting hp, padMessage_of_fits hbytes hfits]
  rfl

/-- Settles O24: where the padded length fits, FINALIZE absorbs the padding and stores the digest. -/
theorem finalizePadsAndStoresTheDigest : Obligations.FinalizePadsAndStoresTheDigest := by
  unfold Obligations.FinalizePadsAndStoresTheDigest
  intro s hp hbytes hle
  have hfits : finalCount s < 2 ^ 64 := by omega
  exact ⟨_, exec_finalize_of_fits hp hbytes hfits, finalized_storeDigest hbytes hfits⟩

/-! ### When FINALIZE faults -/

theorem exec_finalize_overflow {s : State} (hp : s.phase = .accepting) (hbytes : s.bitcnt.toNat % 8 = 0)
    (hover : finalCount s > 2 ^ 64 - 1) : exec .finalize s = .fault (.counterOverflow s.cix 0x30000000) := by
  rw [exec, execFinalize_accepting hp, padMessage_of_overflow hbytes hover]
  rfl

theorem exec_finalize_uninit {s : State} (hp : s.phase = .uninit) :
    exec .finalize s = .fault (.notInitialized s.cix 0x30000000) := by
  rw [exec, execFinalize, hp]
  rfl

theorem exec_finalize_finalized {s : State} (hp : s.phase = .finalized) :
    exec .finalize s = .fault (.alreadyFinalized s.cix 0x30000000) := by
  rw [exec, execFinalize, hp]
  rfl

/-- Settles O25: a padded length that fits gives a next state, so F8 means that it does not. -/
theorem finalizeFaults : Obligations.FinalizeFaults := by
  unfold Obligations.FinalizeFaults
  refine fun s => ⟨fun hp hbytes => ⟨fun hfault => ?_, exec_finalize_overflow hp hbytes⟩, exec_finalize_uninit,
    exec_finalize_finalized⟩
  by_contra hfits
  cases (exec_finalize_of_fits hp hbytes (by omega)).symm.trans hfault

end Sys2Proof.Machine

/-! PROOFS. The compression function (43_compression.md): the four stages, and what a compression reads and writes. -/

namespace Sys2Proof.Machine

/-! ### The stages -/

theorem sixty_le_of_stage {t : Nat} (h0 : t / 20 ≠ 0) (h1 : t / 20 ≠ 1) (h2 : t / 20 ≠ 2) : 60 ≤ t := by omega

/-- The stage function by rounds (43_compression.md R155). -/
theorem stageFn_eq_ite (t : Nat) (b c d : Word) :
    stageFn t b c d = if t < 20 then (b &&& (c ^^^ d)) ^^^ d else if t < 40 then b ^^^ c ^^^ d
      else if t < 60 then (b &&& c) ||| (b &&& d) ||| (c &&& d) else b ^^^ c ^^^ d := by
  unfold stageFn Config.stageRounds
  split
  next h => rw [if_pos (by omega)]
  next h => rw [if_neg (by omega), if_pos (by omega)]
  next h => rw [if_neg (by omega), if_neg (by omega), if_pos (by omega)]
  next h0 h1 h2 =>
    have hlast := sixty_le_of_stage h0 h1 h2
    rw [if_neg (by omega), if_neg (by omega), if_neg (by omega)]

/-- The additive constant by rounds (43_compression.md R155). -/
theorem stageConst_eq_ite (t : Nat) :
    stageConst t = if t < 20 then 0x5A827999 else if t < 40 then 0x6ED9EBA1 else if t < 60 then 0x8F1BBCDC
      else 0xCA62C1D6 := by
  unfold stageConst Config.stageRounds
  split
  next h => rw [if_pos (by omega)]
  next h => rw [if_neg (by omega), if_pos (by omega)]
  next h => rw [if_neg (by omega), if_neg (by omega), if_pos (by omega)]
  next h0 h1 h2 =>
    have hlast := sixty_le_of_stage h0 h1 h2
    rw [if_neg (by omega), if_neg (by omega), if_neg (by omega)]

/-- Settles O35: `t div 20` is the stage, and each stage is one range of rounds. -/
theorem stageFunctionsAndConstants : Obligations.StageFunctionsAndConstants := by
  unfold Obligations.StageFunctionsAndConstants
  exact fun t b c d _ => ⟨stageFn_eq_ite t b c d, stageConst_eq_ite t⟩

/-- A bit of `b` that is set selects the bit of `c`, one that is clear the bit of `d`. -/
theorem stageFn_choice {t : Nat} (ht : t < 20) (b c d : Word) : stageFn t b c d = (b &&& c) ||| (~~~b &&& d) := by
  rw [stageFn_eq_ite, if_pos ht]
  ext i hi
  cases hb : b[i] <;> simp [hb]

theorem stageFn_third {t : Nat} (hlo : 40 ≤ t) (hhi : t < 60) (b c d : Word) :
    stageFn t b c d = (b &&& c) ||| (b &&& d) ||| (c &&& d) := by
  rw [stageFn_eq_ite, if_neg (by omega), if_neg (by omega), if_pos hhi]

/-- At least two of three bits are set exactly when some pair of them is. -/
theorem or_and_eq_true_iff_two_le (x y z : Bool) :
    (x && y || x && z || y && z) = true ↔ 2 ≤ x.toNat + y.toNat + z.toNat := by
  decide +revert

theorem getLsbD_stageFn_third {t : Nat} (hlo : 40 ≤ t) (hhi : t < 60) (b c d : Word) (i : Nat) :
    (stageFn t b c d).getLsbD i = true ↔ 2 ≤ (b.getLsbD i).toNat + (c.getLsbD i).toNat + (d.getLsbD i).toNat := by
  rw [stageFn_third hlo hhi, BitVec.getLsbD_or, BitVec.getLsbD_or, BitVec.getLsbD_and, BitVec.getLsbD_and,
    BitVec.getLsbD_and]
  exact or_and_eq_true_iff_two_le _ _ _

theorem stageFn_choice_zero (c d : Word) : stageFn 0 0 c d = d := by
  have hzero : (0 : Word) = 0#32 := rfl
  rw [stageFn_choice (by decide), hzero, BitVec.zero_and, BitVec.not_zero, BitVec.allOnes_and, BitVec.zero_or]

theorem stageFn_choice_allOnes (c d : Word) : stageFn 0 0xFFFFFFFF c d = c := by
  have hones : (0xFFFFFFFF : Word) = BitVec.allOnes 32 := rfl
  rw [stageFn_choice (by decide), hones, BitVec.allOnes_and, BitVec.not_allOnes, BitVec.zero_and, BitVec.or_zero]

theorem stageFn_third_self (x y : Word) : stageFn 40 x x y = x := by
  rw [stageFn_third (by decide) (by decide), BitVec.and_self]
  ext i hi
  cases hx : x[i] <;> simp [hx]

/-- Settles O36: each identity holds bit by bit; the corner values follow from choice and majority. -/
theorem stageFunctionsChooseAndVote : Obligations.StageFunctionsChooseAndVote := by
  unfold Obligations.StageFunctionsChooseAndVote
  exact ⟨fun _ b c d ht => stageFn_choice ht b c d,
    fun _ b c d i hlo hhi => getLsbD_stageFn_third hlo hhi b c d i,
    fun c d => ⟨stageFn_choice_zero c d, stageFn_choice_allOnes c d⟩, stageFn_third_self⟩

/-! ### The schedule and the rounds -/

theorem scheduleWord_of_lt (blk : Vector Byte 64) {t : Nat} (ht : t < 16) :
    Reference.scheduleWord blk t = blockWord blk ⟨t, ht⟩ := by
  rw [scheduleWord_eq, dif_pos ht]

theorem scheduleWord_of_ge (blk : Vector Byte 64) {t : Nat} (ht : 16 ≤ t) :
    Reference.scheduleWord blk t = rotl32 (Reference.scheduleWord blk (t - 3) ^^^ Reference.scheduleWord blk (t - 8) ^^^
      Reference.scheduleWord blk (t - 14) ^^^ Reference.scheduleWord blk (t - 16)) 1 := by
  rw [scheduleWord_eq, dif_neg (by omega)]

/-- Settles O37: the circular buffer always holds the last 16 words of the schedule. -/
theorem circularBufferHoldsTheSchedule : Obligations.CircularBufferHoldsTheSchedule := by
  unfold Obligations.CircularBufferHoldsTheSchedule
  exact fun h blk t _ => ⟨slot_runRounds h blk t, scheduleWord_of_lt blk, scheduleWord_of_ge blk⟩

/-- Settles O38: each register keeps its word and moves on by one role, but for the two that a round writes. -/
theorem roundIsShiftRound : Obligations.RoundIsShiftRound := by
  unfold Obligations.RoundIsShiftRound
  exact rolesOf_oneRound

/-- Settles O39: round by round the roles agree, and after 80 rounds they are back where they started. -/
theorem compressionAgreesWithTheReference : Obligations.CompressionAgreesWithTheReference := by
  unfold Obligations.CompressionAgreesWithTheReference
  exact compressed_eq_reference

/-! ### What a compression reads and writes -/

theorem compress_h_accumulate (blk : Vector Byte 64) (s : State) :
    (compress blk s).h = accumulate s.h (compress blk s).wr := rfl

@[simp] theorem getElem_accumulate (h wr : Vector Word 5) {k : Nat} (hk : k < 5) :
    (accumulate h wr)[k] = h[k] + wr[k] :=
  Vector.getElem_zipWith _

/-- Settles O40: the registers come from the datapath, which starts from H and the block alone. -/
theorem compressionReadsAndWritesOnlyItsRegisters : Obligations.CompressionReadsAndWritesOnlyItsRegisters := by
  unfold Obligations.CompressionReadsAndWritesOnlyItsRegisters
  refine fun blk s t => ⟨fun hh => compress_congr hh blk, fun k hk => ?_, rfl⟩
  rw [compress_h_accumulate, getElem_accumulate _ _ hk]

end Sys2Proof.Machine

/-! PROOFS. READ (44_read.md): the fields of the STATUS word, the halves of the counter, and that a READ can be repeated. -/

namespace Sys2Proof.Machine

/-! ### The STATUS word -/

theorem State.shownFill_lt (s : State) : s.shownFill < 64 := by
  unfold State.shownFill
  split
  · decide
  · exact Nat.mod_lt _ (by decide)

/-- The STATUS word is given by its number (10_state.md R40). -/
theorem statusWord_toNat (s : State) : (statusWord s).toNat = s.shownFill * 2 ^ 8 + s.phase.code.toNat := by
  have hfill := s.shownFill_lt
  have hcode := s.phase.code.isLt
  simp only [statusWord, BitVec.toNat_append, BitVec.toNat_ofNat, Nat.zero_mod, Nat.zero_shiftLeft, Nat.zero_or,
    Nat.or_zero, Nat.mod_eq_of_lt hfill]
  rw [← Nat.shiftLeft_add_eq_or_of_lt (by omega)]
  simp only [Nat.shiftLeft_eq]
  omega

/-- PHASE and FILL as STATUS shows them, and the bits between and above them. -/
theorem field_statusWord (s : State) :
    field (statusWord s) 0 2 = s.phase.code.toNat ∧ field (statusWord s) 2 6 = 0 ∧
    field (statusWord s) 8 6 = s.shownFill ∧ field (statusWord s) 14 18 = 0 := by
  have hfill := s.shownFill_lt
  have hcode := s.phase.code.isLt
  simp only [field, statusWord_toNat]
  omega

theorem Phase.code_toNat (p : Phase) :
    p.code.toNat = (match p with | .uninit => 0 | .accepting => 1 | .finalized => 2) := by
  cases p <;> rfl

/-- Settles O28: the word read is `statusWord`, whose fields are the number of PHASE and the FILL shown. -/
theorem readStatusEmitsPhaseAndFill : Obligations.ReadStatusEmitsPhaseAndFill := by
  unfold Obligations.ReadStatusEmitsPhaseAndFill
  intro s
  obtain ⟨hphase, hbetween, hfill, habove⟩ := field_statusWord s
  exact ⟨statusWord s, execRead_status s, hphase.trans s.phase.code_toNat, hbetween, hfill, habove⟩

/-! ### The counter -/

/-- BITCNT_HI and BITCNT_LO are the quotient and the remainder of the counter by 2^32 (10_state.md R24). -/
theorem count_eq_halves (c : Count) : c.toNat = (countHi c).toNat * 2 ^ 32 + (countLo c).toNat := by
  have hc := c.isLt
  simp only [countHi, countLo, BitVec.extractLsb'_toNat, Nat.shiftRight_eq_div_pow]
  omega

/-- Settles O30: the words read are `countLo` and `countHi`; in UNINIT both registers are F7. -/
theorem readCounterEmitsItsHalves : Obligations.ReadCounterEmitsItsHalves := by
  unfold Obligations.ReadCounterEmitsItsHalves
  refine fun s => ⟨fun hp => ?_, fun hp => ?_⟩
  · exact ⟨countLo s.bitcnt, countHi s.bitcnt, (execRead_countLo s).trans (if_neg hp),
      (execRead_countHi s).trans (if_neg hp), count_eq_halves s.bitcnt⟩
  · exact ⟨(execRead_countLo s).trans (if_pos hp), (execRead_countHi s).trans (if_pos hp)⟩

/-! ### The reserved registers -/

/-- The word of READ, by the register it names (30_encoding.md R75). -/
theorem encode_read {reg : Nat} (hreg : reg < 16) : encode (.read reg) = 0x40000000 + BitVec.ofNat 32 reg := by
  have hall : ∀ reg < 16, encode (.read reg) = 0x40000000 + BitVec.ofNat 32 reg := by decide
  exact hall reg hreg

/-- Settles O31: an index from 8 on is no register, and `encode_read` is the word recorded. -/
theorem readOfReservedRegisterFaults : Obligations.ReadOfReservedRegisterFaults := by
  unfold Obligations.ReadOfReservedRegisterFaults
  intro s reg hlo hhi
  have hfault : exec (.read reg) s = raise .reservedRegister (.read reg) s := execRead_reserved hlo s
  rw [hfault, raise, encode_read (by omega)]

/-! ### READ again -/

theorem guardedEmit_next {c : Prop} [Decidable c] {code : Nat → Word → Fault} {i : Instr} {s t : State} {w : Word}
    (h : (if c then raise code i s else .next (s.emit w)) = .next t) : ¬ c ∧ t = s.emit w := by
  split at h
  case isTrue => cases h
  case isFalse hc =>
    cases h
    exact ⟨hc, rfl⟩

/-- An answered READ has emitted a word, and emits it again after: no register shows the response stream. -/
theorem execRead_again {reg : Nat} {s t : State} (h : execRead reg s = .next t) :
    ∃ w, t = s.emit w ∧ execRead reg t = .next (t.emit w) := by
  obtain rfl | ⟨k, hk, rfl⟩ | rfl | rfl | hreg := register_cases reg
  case inl =>
    cases (execRead_status s).symm.trans h
    exact ⟨statusWord s, rfl, execRead_status _⟩
  case inr.inl =>
    by_cases hp : s.phase = .finalized
    · cases (execRead_digest hk hp).symm.trans h
      exact ⟨digestWord s.dg ⟨k, hk⟩, rfl, execRead_digest hk hp⟩
    · cases (execRead_digest_fault hk hp).symm.trans h
  case inr.inr.inl =>
    obtain ⟨hp, rfl⟩ := guardedEmit_next ((execRead_countLo s).symm.trans h)
    exact ⟨countLo s.bitcnt, rfl, (execRead_countLo _).trans (if_neg hp)⟩
  case inr.inr.inr.inl =>
    obtain ⟨hp, rfl⟩ := guardedEmit_next ((execRead_countHi s).symm.trans h)
    exact ⟨countHi s.bitcnt, rfl, (execRead_countHi _).trans (if_neg hp)⟩
  case inr.inr.inr.inr => cases (execRead_reserved hreg s).symm.trans h

theorem State.emit_emit (v w : Word) (s : State) : (s.emit v).emit w = { s with resp := s.resp ++ [v, w] } := by
  simp [State.emit]

/-- Settles O32: `execRead_again`, with both emitted words written out. -/
theorem readHasNoSideEffect : Obligations.ReadHasNoSideEffect := by
  unfold Obligations.ReadHasNoSideEffect
  intro s t reg h
  obtain ⟨w, rfl, hagain⟩ := execRead_again h
  exact ⟨w, rfl, State.emit_emit w w s ▸ hagain⟩

end Sys2Proof.Machine

/-! PROOFS. Every fault record holds the index and the word of the command that faulted (60_exceptions.md R182). -/

namespace Sys2Proof.Machine

/-- The codes F1 to F8 of 60_exceptions.md R182, each still to be given the index and the word of its command. -/
def faultCodes : List (Nat → Word → Fault) :=
  [.reservedOpcode, .reservedField, .notInitialized, .alreadyFinalized,
    .reservedRegister, .digestNotValid, .counterNotValid, .counterOverflow]

theorem decodeFault_mem_faultCodes (e : DecodeError) : decodeFault e ∈ faultCodes := by
  cases e with
  | reservedOpcode => exact .head _
  | reservedField => exact .tail _ (.head _)

theorem violation_mem_faultCodes {i : Instr} {s : State} {code : Nat → Word → Fault} (h : violation i s = some code) :
    code ∈ faultCodes := by
  unfold violation at h
  split at h
  case h_1 => cases h
  all_goals
    split_ifs at h
    all_goals
      cases h
      simp [faultCodes]

/-- A command that answers by its violation faults with the code of that violation, its index and its word. -/
theorem AnswersViolation.fault {i : Instr} {s : State} {f : Fault} (hanswer : AnswersViolation (violation i s) i s)
    (h : exec i s = .fault f) : ∃ code ∈ faultCodes, f = code s.cix (encode i) := by
  cases hviolation : violation i s with
  | none =>
    rw [hviolation] at hanswer
    obtain ⟨t, hnext⟩ := hanswer
    cases hnext.symm.trans h
  | some code =>
    rw [hviolation] at hanswer
    cases hanswer.symm.trans h
    exact ⟨code, violation_mem_faultCodes hviolation, rfl⟩

/-- `finalize_answersViolation` asks for a counter of whole bytes; what FINALIZE records does not depend on the counter. -/
theorem exec_finalize_fault {s : State} {f : Fault} (h : exec .finalize s = .fault f) :
    ∃ code ∈ faultCodes, f = code s.cix (encode .finalize) := by
  cases hp : s.phase with
  | uninit =>
    cases (exec_finalize_uninit hp).symm.trans h
    exact ⟨.notInitialized, by simp [faultCodes], rfl⟩
  | finalized =>
    cases (exec_finalize_finalized hp).symm.trans h
    exact ⟨.alreadyFinalized, by simp [faultCodes], rfl⟩
  | accepting =>
    replace h := (execFinalize_accepting hp).symm.trans h
    cases hpad : padMessage s with
    | none =>
      rw [hpad] at h
      cases h
      exact ⟨.counterOverflow, by simp [faultCodes], rfl⟩
    | some t =>
      rw [hpad] at h
      cases h

/-- The faults of a command, in every state: one of the codes, with the index of the state and the command's encoding. -/
theorem exec_fault {i : Instr} {s : State} {f : Fault} (h : exec i s = .fault f) :
    ∃ code ∈ faultCodes, f = code s.cix (encode i) := by
  cases i with
  | init => cases h
  | append0 => exact (append_answersViolation rfl s).fault h
  | append1 b0 => exact (append_answersViolation rfl s).fault h
  | append2 b0 b1 => exact (append_answersViolation rfl s).fault h
  | append3 b0 b1 b2 => exact (append_answersViolation rfl s).fault h
  | finalize => exact exec_finalize_fault h
  | read reg => exact (read_answersViolation reg s).fault h

theorem complete_eq_fault {o : Host.Outcome State Fault Refusal} {f : Fault} (h : complete o = .fault f) :
    o = .fault f := by
  cases o with
  | fault g => exact h
  | _ => cases h

/-- The faults of a word the engine runs. Where it decodes, the encoding that the command records is the word itself. -/
theorem runCommand_fault {w : Word} {s : State} {f : Fault} (h : runCommand w s = .fault f) :
    ∃ code ∈ faultCodes, f = code s.cix w := by
  cases hdec : decode w with
  | error e =>
    cases (runCommand_error hdec s).symm.trans h
    exact ⟨decodeFault e, decodeFault_mem_faultCodes e, rfl⟩
  | ok i =>
    have hexec : exec i s = .fault f := complete_eq_fault ((runCommand_ok hdec s).symm.trans h)
    obtain ⟨hword, -⟩ := encode_of_decode hdec
    exact hword ▸ exec_fault hexec

/-- Settles O10: only a command word faults, and `runCommand_fault` gives its code on the state without the word, whose
index is the state's own. -/
theorem faultRecordsIndexAndWord : Obligations.FaultRecordsIndexAndWord := by
  unfold Obligations.FaultRecordsIndexAndWord
  intro s f h
  obtain ⟨w, rest, hport⟩ := step_fault_port h
  obtain ⟨code, hcode, rfl⟩ := runCommand_fault ((step_command hport).symm.trans h)
  exact ⟨w, rest, hport, List.mem_map_of_mem (f := fun c => c s.cix w) hcode⟩

end Sys2Proof.Machine

/-! PROOFS. The invariant at hardware reset (70_reset_and_hazards.md R200, R201). -/

namespace Sys2Proof.Machine

/-- Settles O42: reset is in UNINIT, where only the buffer counts, and the empty list is in canonical form. -/
theorem resetHasTheInvariant : Obligations.ResetHasTheInvariant := by
  unfold Obligations.ResetHasTheInvariant
  have hphase : State.reset.phase = .uninit := rfl
  have hbuffer : State.reset.bb.wf = true := rfl
  exact .of_uninit hphase hbuffer

end Sys2Proof.Machine
